-- ==== Sys2Proof/Config.lean ====
section
/-! DEFINITION. The implementation parameters of the unit (00_scope.md, R6 to R8), at the values of the hardware
specified. XLEN and EXTENDED are arguments of construction and constant fields of State, so that every width and both
variants are one model (log entries 1 and 2). The spec draws no free value anywhere (R111; 93, end of Part 1), so there
is no opaque constant here. -/

namespace Sys2Proof

/-- `XLEN` (R7) of the hardware specified: the width in bits of every memory cell, of `pc`, of `rb` and of every queue
entry. -/
def Config.xlen : Nat := 64

/-- `EXTENDED` (R6) of the hardware specified: the variant with `rb`, `Relative` mode and opcode 09. -/
def Config.extended : Bool := true

/-- The `PAD` that `State.reset` is constructed with, its image being empty: the largest `MEM_LEN` that R8 allows for
`XLEN = 64`. DESIGN CHOICE (log entry 4): the spec makes image and `PAD` arguments of reset. -/
def Config.resetPad : Nat := 2 ^ (Config.xlen - 1) - 4

end Sys2Proof
end

