-- ==== Sys2Proof/Word.lean ====
section
/-! DEFINITION. The values of the machine: integers of `Int_X` (R7, R11). A cell, `pc`, `rb` and a queue entry are signed
mathematical integers; that each lies in the range of the core's `XLEN` bits is `InX`, an invariant of the machine (R34
(f)). A cell is one integer and is never cut into bytes (R48). -/

namespace Sys2Proof

/-- `2^(XLEN-1)`: the number of non-negative values of `Int_X`. -/
def halfRange (xlen : Nat) : Nat := 2 ^ (xlen - 1)

/-- `v` is in `Int_X` (R7): `-2^(XLEN-1) <= v <= 2^(XLEN-1) - 1`. -/
abbrev InX (xlen : Nat) (v : Int) : Prop := -(halfRange xlen : Int) ≤ v ∧ v < (halfRange xlen : Int)

/-- Every value of a list is in `Int_X`: what the host must see to for an image and for an input batch (R122). -/
abbrev AllInX (xlen : Nat) (values : List Int) : Prop := ∀ v ∈ values, InX xlen v

end Sys2Proof
end

