-- ==== Sys2Proof/Machine/Flags.lean ====
section
/-! DEFINITION. The results of the ALU. The hardware has no flags and no condition codes (R31): a comparison yields the
integer 0 or 1, and arithmetic records no overflow (R82). -/

namespace Sys2Proof.Machine

/-- `wrap_X` of R11: the element of `Int_X` congruent to `v` modulo `2^XLEN`. -/
def wrapX (xlen : Nat) (v : Int) : Int := v.bmod (2 ^ xlen)

/-- The result of Add and ChangeBase (R80, R82, R100): the exact sum, wrapped. -/
def aluAdd (xlen : Nat) (a b : Int) : Int := wrapX xlen (a + b)

/-- The result of Mul (R81, R82): the exact product, wrapped. -/
def aluMul (xlen : Nat) (a b : Int) : Int := wrapX xlen (a * b)

/-- The result of Lt (R95): 1 if `a < b` as signed integers, else 0. -/
def aluLt (a b : Int) : Int := if a < b then 1 else 0

/-- The result of Eq (R96): 1 if `a == b`, else 0. -/
def aluEq (a b : Int) : Int := if a = b then 1 else 0

/-- The test of Jnz (R90). -/
def isNonZero (a : Int) : Bool := a != 0

/-- The test of Jz (R91). -/
def isZero (a : Int) : Bool := a == 0

end Sys2Proof.Machine
end

