-- ==== Sys2Proof/Syntax.lean ====
section
/-! DEFINITION. The instructions as syntax: one constructor of `Instr` for each row of spec/opcode_table.json. -/

namespace Sys2Proof

/-- The addressing modes (R64): "Position/Immediate/Relative". -/
inductive Mode where
  | position
  | immediate
  | relative
  deriving DecidableEq, Repr

/-- A parameter: "a (mode, raw value) pair produced by the decoder" (R67). Any raw value is legal (R62). -/
structure Param where
  mode : Mode
  raw  : Int
  deriving DecidableEq, Repr

/-- The operation codes (R63). -/
inductive Opcode where
  | add
  | mul
  | inp
  | out
  | jnz
  | jz
  | lt
  | eq
  | changeBase
  | halt
  deriving DecidableEq, Repr

/-- The ten instructions (R63). Which parameters are read and which one is a write target is fixed by the opcode (R65):
the last parameter of `add`, `mul`, `lt`, `eq` and the one of `inp` are write targets. -/
inductive Instr where
  | add (a b c : Param)
  | mul (a b c : Param)
  | inp (a : Param)
  | out (a : Param)
  | jnz (a b : Param)
  | jz (a b : Param)
  | lt (a b c : Param)
  | eq (a b c : Param)
  | changeBase (a : Param)
  | halt
  deriving DecidableEq, Repr

/-- The operation of an instruction. -/
def Instr.opcode : Instr → Opcode
  | .add _ _ _ => .add
  | .mul _ _ _ => .mul
  | .inp _ => .inp
  | .out _ => .out
  | .jnz _ _ => .jnz
  | .jz _ _ => .jz
  | .lt _ _ _ => .lt
  | .eq _ _ _ => .eq
  | .changeBase _ => .changeBase
  | .halt => .halt

/-- The parameters of an instruction, parameter 1 first. -/
def Instr.params : Instr → List Param
  | .add a b c => [a, b, c]
  | .mul a b c => [a, b, c]
  | .inp a => [a]
  | .out a => [a]
  | .jnz a b => [a, b]
  | .jz a b => [a, b]
  | .lt a b c => [a, b, c]
  | .eq a b c => [a, b, c]
  | .changeBase a => [a]
  | .halt => []

/-- The write target of an instruction, if it has one (R65). -/
def Instr.writeParam : Instr → Option Param
  | .add _ _ c => some c
  | .mul _ _ c => some c
  | .inp a => some a
  | .out _ => none
  | .jnz _ _ => none
  | .jz _ _ => none
  | .lt _ _ c => some c
  | .eq _ _ c => some c
  | .changeBase _ => none
  | .halt => none

/-- The length of an instruction in cells, `1 + n` (R62). -/
def Instr.length (i : Instr) : Nat := 1 + i.params.length

end Sys2Proof
end

