-- ==== Sys2Proof/WellFormed.lean ====
section
/-! DEFINITION. Which instructions exist in a variant, and which are well formed (R6, R65, R77). -/

namespace Sys2Proof

/-- `LEGAL_MODES` of R66: `Relative` is a mode of the extended variant only (R6). -/
def Mode.legal (extended : Bool) : Mode → Bool
  | .position => true
  | .immediate => true
  | .relative => extended

/-- Opcode 09 is in the table of the extended variant only (R6, R63). -/
def Opcode.legal (extended : Bool) : Opcode → Bool
  | .changeBase => extended
  | .add | .mul | .inp | .out | .jnz | .jz | .lt | .eq | .halt => true

/-- The instruction is one that decode can yield in this variant: its opcode and its modes are legal (R66). -/
def Instr.legal (extended : Bool) (i : Instr) : Bool :=
  i.opcode.legal extended && i.params.all (fun p => p.mode.legal extended)

/-- No `Immediate` write target: "valid only for read positions, never as a write target in well-formed programs"
(R75). -/
def Instr.writeTargetOk (i : Instr) : Bool :=
  match i.writeParam with
  | none => true
  | some p => p.mode != .immediate

/-- Every raw value is the content of a cell, an `Int_X` (R62, R16); any such value is legal. -/
def Instr.rawsInX (xlen : Nat) (i : Instr) : Bool := i.params.all (fun p => decide (InX xlen p.raw))

/-- A well-formed instruction of a core of width `xlen` and a variant (R77). -/
def Instr.wellFormed (xlen : Nat) (extended : Bool) (i : Instr) : Bool :=
  i.legal extended && i.writeTargetOk && i.rawsInX xlen

end Sys2Proof
end

