-- ==== Sys2Proof/Decode.lean ====
section
/-! DEFINITION. Decoding (30_encoding.md): the instruction word by its decimal digits, then the parameter cells; after
it the encoder. -/

namespace Sys2Proof

/-- Why an instruction word does not decode (R66). -/
inductive DecodeFault where
  /-- R71, R72: a negative word, or no row of the opcode table. -/
  | invalidOpcode
  /-- R74: a digit the instruction does not use is not 0. -/
  | reservedDigits
  /-- R73: a mode digit that selects no mode. -/
  | invalidMode
  deriving DecidableEq, Repr

/-- Why a list of cells does not decode to an instruction. -/
inductive DecodeReject where
  /-- The instruction word itself is rejected. -/
  | fault (f : DecodeFault)
  /-- The list ends before cell `k` of the instruction; `k = 0` is the instruction word. -/
  | missingCell (k : Nat)
  deriving DecidableEq, Repr

/-- What decode yields, `(op, n, m1..mn)` of R66. The mode of a parameter the instruction does not have is `position`,
its digit being 0 (R74). -/
structure Head where
  op : Opcode
  m1 : Mode
  m2 : Mode
  m3 : Mode
  deriving DecidableEq, Repr

/-- The value `op` must have (R63). -/
def Opcode.code : Opcode → Nat
  | .add => 1
  | .mul => 2
  | .inp => 3
  | .out => 4
  | .jnz => 5
  | .jz => 6
  | .lt => 7
  | .eq => 8
  | .changeBase => 9
  | .halt => 99

/-- The parameter count `n` (R63, R66). -/
def Opcode.arity : Opcode → Nat
  | .add | .mul | .lt | .eq => 3
  | .jnz | .jz => 2
  | .inp | .out | .changeBase => 1
  | .halt => 0

/-- The row of the opcode table that `op` selects, if any (R63, R71). -/
def Opcode.ofCode (extended : Bool) : Nat → Option Opcode
  | 1 => some .add
  | 2 => some .mul
  | 3 => some .inp
  | 4 => some .out
  | 5 => some .jnz
  | 6 => some .jz
  | 7 => some .lt
  | 8 => some .eq
  | 9 => if extended then some .changeBase else none
  | 99 => some .halt
  | _ => none

/-- The digit of a mode (R64). Digit 2 for `Relative` is from general knowledge in the spec (log entry 11). -/
def Mode.digit : Mode → Nat
  | .position => 0
  | .immediate => 1
  | .relative => 2

/-- The mode a digit selects, if any (R64, R73). -/
def Mode.ofDigit (extended : Bool) : Nat → Option Mode
  | 0 => some .position
  | 1 => some .immediate
  | 2 => if extended then some .relative else none
  | _ => none

/-- Decimal digit `k` of a natural number (R12). -/
def digit (w k : Nat) : Nat := w / 10 ^ k % 10

/-- A digit the instruction does not use is not 0 (R74): digits 5 and up, and the mode digit of a parameter above the
`n` the instruction has. -/
def reservedDigitSet (n w : Nat) : Bool :=
  w / 100000 != 0 || (n < 1 && digit w 2 != 0) || (n < 2 && digit w 3 != 0) || (n < 3 && digit w 4 != 0)

/-- The decode function of R66, its checks in that order. -/
def decodeHead (extended : Bool) (w : Int) : Except DecodeFault Head :=
  if w < 0 then .error .invalidOpcode
  else
    match Opcode.ofCode extended (w.toNat % 100) with
    | none => .error .invalidOpcode
    | some op =>
      if reservedDigitSet op.arity w.toNat then .error .reservedDigits
      else
        match Mode.ofDigit extended (digit w.toNat 2), Mode.ofDigit extended (digit w.toNat 3),
            Mode.ofDigit extended (digit w.toNat 4) with
        | some m1, some m2, some m3 => .ok ⟨op, m1, m2, m3⟩
        | _, _, _ => .error .invalidMode

/-- The typed instruction (R67): the decoded word with the raw values of its parameter cells. A raw value of a parameter
the instruction does not have is not used. -/
def Head.instr (h : Head) (raw1 raw2 raw3 : Int) : Instr :=
  match h.op with
  | .add => .add ⟨h.m1, raw1⟩ ⟨h.m2, raw2⟩ ⟨h.m3, raw3⟩
  | .mul => .mul ⟨h.m1, raw1⟩ ⟨h.m2, raw2⟩ ⟨h.m3, raw3⟩
  | .inp => .inp ⟨h.m1, raw1⟩
  | .out => .out ⟨h.m1, raw1⟩
  | .jnz => .jnz ⟨h.m1, raw1⟩ ⟨h.m2, raw2⟩
  | .jz => .jz ⟨h.m1, raw1⟩ ⟨h.m2, raw2⟩
  | .lt => .lt ⟨h.m1, raw1⟩ ⟨h.m2, raw2⟩ ⟨h.m3, raw3⟩
  | .eq => .eq ⟨h.m1, raw1⟩ ⟨h.m2, raw2⟩ ⟨h.m3, raw3⟩
  | .changeBase => .changeBase ⟨h.m1, raw1⟩
  | .halt => .halt

/-- The parameter cells of a decoded word taken from the front of a list of cells (R62, R67); `missingCell k` where the
list ends before parameter `k`. -/
def Head.takeParams (h : Head) (cells : List Int) : Except DecodeReject (Instr × List Int) :=
  match h.op.arity, cells with
  | 0, rest => .ok (h.instr 0 0 0, rest)
  | 1, r1 :: rest => .ok (h.instr r1 0 0, rest)
  | 2, r1 :: r2 :: rest => .ok (h.instr r1 r2 0, rest)
  | 3, r1 :: r2 :: r3 :: rest => .ok (h.instr r1 r2 r3, rest)
  | _, short => .error (.missingCell (short.length + 1))

/-- Decoding a list of cells: the instruction at its front and the cells after it. The word is decoded before a missing
parameter cell is noticed (R138). -/
def decode (extended : Bool) : List Int → Except DecodeReject (Instr × List Int)
  | [] => .error (.missingCell 0)
  | w :: cells =>
    match decodeHead extended w with
    | .error f => .error (.fault f)
    | .ok h => h.takeParams cells

/-- The number `10000*m3 + 1000*m2 + 100*m1 + op` of R77. -/
def Head.number (h : Head) : Nat :=
  10000 * h.m3.digit + 1000 * h.m2.digit + 100 * h.m1.digit + h.op.code

/-- The opcode and the modes of an instruction. -/
def Instr.head (i : Instr) : Head :=
  let mode (k : Nat) : Mode :=
    match i.params[k]? with
    | some p => p.mode
    | none => .position
  ⟨i.opcode, mode 0, mode 1, mode 2⟩

/-- The instruction word of an instruction (R60, R77). -/
def Instr.word (i : Instr) : Int := i.head.number

/-- The encoder: the cells of an instruction, the instruction word first (R62). -/
def encode (i : Instr) : List Int := i.word :: i.params.map (·.raw)

/-- The `n` cells of `XLEN` bits that a number holds, bit 0 being the least significant bit of the first cell. -/
def cellsOfNat (xlen : Nat) : Nat → Nat → List Int
  | 0, _ => []
  | n + 1, w => Machine.wrapX xlen w :: cellsOfNat xlen n (w / 2 ^ xlen)

/-- The cells of the longest instruction (R62). -/
def maxInstrCells : Nat := 4

/-- The instruction that the decoder of this hardware reads from an instruction whose bits are `w`, the first cell in
the low `XLEN` bits. No bit of `w` above `nbits` is set, so `nbits` is not needed. -/
def decodeTableWord (_nbits w : Nat) : Option Instr :=
  match decode Config.extended (cellsOfNat Config.xlen maxInstrCells w) with
  | .ok (i, _) => some i
  | .error _ => none

end Sys2Proof
end

