-- ==== Sys2Proof/Machine/State.lean ====
section
/-! DEFINITION. The architectural state of one core (10_state.md) and its reset value (R35, R160). -/

namespace Sys2Proof.Machine

/-- The run state `rs` (R26, R116). -/
inductive RunState where
  | running
  | suspended
  | halted
  | faulted
  deriving DecidableEq, Repr

/-- The fault causes (R130). -/
inductive Cause where
  /-- Code 0: no fault. -/
  | noFault
  /-- Code 1 (R131). -/
  | invalidOpcode
  /-- Code 2 (R132). -/
  | addressFault
  /-- Code 3 (R133). -/
  | immediateWriteTarget
  /-- Code 4 (R134). -/
  | invalidMode
  /-- Code 5 (R135). -/
  | reservedDigits
  deriving DecidableEq, Repr

/-- The access kind of an address fault (R28, R132); `noKind` for every other fault. -/
inductive AccessKind where
  | noKind
  | fetch
  | param
  | read
  | write
  deriving DecidableEq, Repr

/-- The memory (R21, R40): `MEM_LEN` cells. `cells` lists (index, cell) pairs in one canonical form (`Memory.wf` in
Ops.lean), and a cell below `len` that is not listed reads as `Memory.unlisted`. Log entry 3. -/
structure Memory where
  len   : Nat
  cells : List (Nat × Int)
  deriving DecidableEq, Repr

/-- The whole state of one core: R21, R22, R24 to R30. `extended` is the parameter `EXTENDED` of R6, constant for the
life of the core (log entry 2), and `xlen` the parameter
`XLEN` of R7, constant as well (log entry 1). -/
structure State where
  mem      : Memory
  pc       : Int
  rb       : Int
  halted   : Bool
  rs       : RunState
  busy     : Bool
  cause    : Cause
  info     : Int
  kind     : AccessKind
  inq      : List Int
  outq     : List Int
  extended : Bool
  xlen     : Nat
  deriving DecidableEq, Repr

/-- How a step of the model can stop with a fault: it cannot. Every fault of this hardware is the transition to
`FAULTED` of R140, a next state (log entry 7). Safe: there is nothing to raise. -/
inductive Fault where
  deriving DecidableEq, Repr

/-- How the model can refuse. No instruction and no step is refused. -/
inductive Refusal where
  /-- Raised by an arm of `exec` for an instruction that has no meaning yet; no arm raises it. Safe. -/
  | notModelled (mnemonic : String)
  /-- Raised by the host action reset for an image and `PAD` above the bound of R8 on `MEM_LEN`, a premise on the host
  (U20 of 93: refuse; log entry 8). Safe. -/
  | memLenOutOfBounds
  /-- Raised by the host actions reset and start for an image or an input batch with a value outside `Int_X`, a premise on
  the host (R122; U20 of 93: refuse; log entry 8). Safe. -/
  | hostValueOutOfRange
  deriving DecidableEq, Repr

/-- The machine right after reset (R35, R160), constructed from the empty image and `Config.resetPad` zero cells (log
entry 4). -/
def State.reset : State where
  mem      := ⟨Config.resetPad, []⟩
  pc       := 0
  rb       := 0
  halted   := false
  rs       := .running
  busy     := false
  cause    := .noFault
  info     := 0
  kind     := .noKind
  inq      := []
  outq     := []
  extended := Config.extended
  xlen     := Config.xlen

end Sys2Proof.Machine
end

