-- ==== Sys2Proof/Machine/Ops.lean ====
section
/-! DEFINITION. The operations over memory, registers and queues, fault entry (R140), suspension (R85) and halting
(R101). -/

namespace Sys2Proof.Machine

/-- What a cell below `MEM_LEN` that is not listed reads as: 0, the reset value of the scratchpad (R43, R160). -/
def Memory.unlisted : Int := 0

/-- The indices rise strictly, each lies in `lo .. hi - 1`, and no cell listed holds what an unlisted one reads as. -/
def cellsWf (hi : Nat) : Nat → List (Nat × Int) → Bool
  | _, [] => true
  | lo, (a, v) :: rest => decide (lo ≤ a) && decide (a < hi) && v != Memory.unlisted && cellsWf hi (a + 1) rest

/-- The canonical form of a memory: equal memories are equal data. -/
def Memory.wf (m : Memory) : Bool := cellsWf m.len 0 m.cells

/-- The content of index `a` in a list of cells. -/
def lookupCell : List (Nat × Int) → Nat → Int
  | [], _ => Memory.unlisted
  | (b, v) :: rest, a => if a = b then v else lookupCell rest a

/-- `mem[a]` of R13, for an index below `MEM_LEN`. -/
def Memory.cell (m : Memory) (a : Nat) : Int := lookupCell m.cells a

/-- Replace the content of index `a` in a list of cells, keeping the canonical form. -/
def insertCell (a : Nat) (v : Int) : List (Nat × Int) → List (Nat × Int)
  | [] => if v = Memory.unlisted then [] else [(a, v)]
  | (b, u) :: rest =>
    if a < b then (if v = Memory.unlisted then (b, u) :: rest else (a, v) :: (b, u) :: rest)
    else if a = b then (if v = Memory.unlisted then rest else (a, v) :: rest)
    else (b, u) :: insertCell a v rest

/-- `mem[a] <- v` (R46): the whole cell is replaced, `MEM_LEN` stays. -/
def Memory.setCell (m : Memory) (a : Nat) (v : Int) : Memory := ⟨m.len, insertCell a v m.cells⟩

/-- The legal addresses (R41): `0 <= a < MEM_LEN`. -/
abbrev Memory.InRange (m : Memory) (a : Int) : Prop := 0 ≤ a ∧ a < (m.len : Int)

/-- The cells of an image from index `a` on, in canonical form. -/
def cellsOfImage : Nat → List Int → List (Nat × Int)
  | _, [] => []
  | a, v :: image => if v = Memory.unlisted then cellsOfImage (a + 1) image else (a, v) :: cellsOfImage (a + 1) image

/-- The memory that an image and `PAD` zero cells make (R160). -/
def Memory.ofImage (image : List Int) (pad : Nat) : Memory := ⟨image.length + pad, cellsOfImage 0 image⟩

/-- The content of a fault record (R28): what `raise` of R140 is given. -/
structure FaultRecord where
  cause : Cause
  info  : Int
  kind  : AccessKind
  deriving DecidableEq, Repr

/-- The codes of R130. -/
def Cause.code : Cause → Nat
  | .noFault => 0
  | .invalidOpcode => 1
  | .addressFault => 2
  | .immediateWriteTarget => 3
  | .invalidMode => 4
  | .reservedDigits => 5

/-- `AddressFault(a)` with its access kind (R132). -/
def FaultRecord.address (a : Int) (kind : AccessKind) : FaultRecord := ⟨.addressFault, a, kind⟩

/-- A fault whose `info` is the instruction word (R131, R133, R134, R135). -/
def FaultRecord.word (cause : Cause) (w : Int) : FaultRecord := ⟨cause, w, .noKind⟩

/-- `MemRead(a, 1)` of R45. -/
def State.memRead (s : State) (a : Int) (kind : AccessKind) : Except FaultRecord Int :=
  if s.mem.InRange a then .ok (s.mem.cell a.toNat) else .error (.address a kind)

/-- The range check of `MemWrite` (R46, R69): the index to be written. -/
def State.writeIndex (s : State) (a : Int) : Except FaultRecord Nat :=
  if s.mem.InRange a then .ok a.toNat else .error (.address a .write)

/-- The write of `MemWrite` (R46), after its range check. -/
def State.setCell (s : State) (a : Nat) (v : Int) : State := { s with mem := s.mem.setCell a v }

/-- `pc <- target`, unchecked (R22, R90). -/
def State.setPc (s : State) (target : Int) : State := { s with pc := target }

/-- `pc <- pc + n` (R23). The sum is exact: R8 bounds `MEM_LEN` so that it stays in `Int_X`. -/
def State.advance (s : State) (n : Nat) : State := s.setPc (s.pc + n)

/-- Reading `rb`: with `EXTENDED = false` "it does not exist and reads as 0" (R24). -/
def State.base (s : State) : Int := if s.extended then s.rb else 0

/-- Writing `rb`: the base variant has no such register (R6, R24). -/
def State.setBase (s : State) (v : Int) : State := if s.extended then { s with rb := v } else s

/-- `outq.push(v)`: append at the tail (R30, R86). -/
def State.pushOut (s : State) (v : Int) : State := { s with outq := s.outq ++ [v] }

/-- `inq.pop()` (R29, R85). -/
def State.popIn (s : State) : State := { s with inq := s.inq.tail }

/-- Fault entry (R140): the fault record, `rs` and `busy` are written and nothing else. There is no vector, no handler
and no return from a fault (R142). -/
def State.raise (s : State) (f : FaultRecord) : State :=
  { s with cause := f.cause, info := f.info, kind := f.kind, rs := .faulted, busy := false }

/-- Suspension (R85): only `rs` and `busy` change. -/
def State.suspend (s : State) : State := { s with rs := .suspended, busy := false }

/-- The effect of Halt (R101). -/
def State.halt (s : State) : State := { s with halted := true, rs := .halted, busy := false }

/-- The end of an instruction (R112): if every check passed, all its writes together; if one failed, the fault entry
from the state before the step. -/
def State.commit (s : State) (r : Except FaultRecord State) : Host.Outcome State Fault Refusal :=
  match r with
  | .ok t => .next t
  | .error f => .next (s.raise f)

end Sys2Proof.Machine
end

