-- ==== Sys2Proof/Machine/Operands.lean ====
section
/-! DEFINITION. Operand resolution (R68, R69) and the shapes of instruction built on it. -/

namespace Sys2Proof.Machine

/-- `rd(k)` of R68: the effective value of a read parameter. The sum with `rb` does not wrap (R47). -/
def State.rd (s : State) (p : Param) : Except FaultRecord Int :=
  match p.mode with
  | .position => s.memRead p.raw .read
  | .immediate => .ok p.raw
  | .relative => s.memRead (p.raw + s.base) .read

/-- `wa(k)` of R69, range-checked: the index that a write parameter names. `w` is the instruction word, the `info` of an
`Immediate` write target (R133). -/
def State.wa (s : State) (w : Int) (p : Param) : Except FaultRecord Nat :=
  match p.mode with
  | .position => s.writeIndex p.raw
  | .immediate => .error (.word .immediateWriteTarget w)
  | .relative => s.writeIndex (p.raw + s.base)

/-- The shape of Add, Mul, Lt and Eq: "read both source parameters by value (respecting mode), compute, and store into
the resolved write address" (R54, R80), then `pc + 4`. -/
def State.computeStore (s : State) (w : Int) (f : Int → Int → Int) (a b c : Param) :
    Host.Outcome State Fault Refusal :=
  s.commit (do
    let x ← s.rd a
    let y ← s.rd b
    let d ← s.wa w c
    pure ((s.setCell d (f x y)).advance 4))

/-- The shape of Jnz and Jz (R90, R91): both parameters are resolved whether or not the jump is taken. -/
def State.jumpIf (s : State) (taken : Int → Bool) (a b : Param) : Host.Outcome State Fault Refusal :=
  s.commit (do
    let x ← s.rd a
    let y ← s.rd b
    pure (if taken x then s.setPc y else s.advance 3))

end Sys2Proof.Machine
end

