-- ==== Sys2Proof/Machine/Arithmetic.lean ====
section
/-! DEFINITION. Add and Mul (40_arithmetic.md). -/

namespace Sys2Proof.Machine

/-- Add (R80): "mem[c] = a + b". -/
def execAdd (a b c : Param) (s : State) : Host.Outcome State Fault Refusal :=
  s.computeStore (Instr.add a b c).word (aluAdd s.xlen) a b c

/-- Mul (R81): "mem[c] = a * b". -/
def execMul (a b c : Param) (s : State) : Host.Outcome State Fault Refusal :=
  s.computeStore (Instr.mul a b c).word (aluMul s.xlen) a b c

end Sys2Proof.Machine
end

