-- ==== Sys2Proof/Machine/BaseHalt.lean ====
section
/-! DEFINITION. ChangeBase and Halt (44_base_and_halt.md). -/

namespace Sys2Proof.Machine

/-- ChangeBase (R100): `rb <- wrap_X(rb + a)`, the operand resolved with the old `rb`. -/
def execChangeBase (a : Param) (s : State) : Host.Outcome State Fault Refusal :=
  s.commit (do
    let x ← s.rd a
    pure ((s.setBase (aluAdd s.xlen s.base x)).advance 2))

/-- Halt (R101): `halted`, `rs` and `busy` are written, `pc` stays on the Halt word. -/
def execHalt (s : State) : Host.Outcome State Fault Refusal :=
  .next s.halt

end Sys2Proof.Machine
end

