-- ==== Sys2Proof/Machine/Compare.lean ====
section
/-! DEFINITION. Lt and Eq (43_compare.md). -/

namespace Sys2Proof.Machine

/-- Lt (R95): "mem[c] = 1 if a < b else 0", signed. -/
def execLt (a b c : Param) (s : State) : Host.Outcome State Fault Refusal :=
  s.computeStore (Instr.lt a b c).word aluLt a b c

/-- Eq (R96): "mem[c] = 1 if a == b else 0". -/
def execEq (a b c : Param) (s : State) : Host.Outcome State Fault Refusal :=
  s.computeStore (Instr.eq a b c).word aluEq a b c

end Sys2Proof.Machine
end

