-- ==== Sys2Proof/Machine/InOut.lean ====
section
/-! DEFINITION. In and Out (41_io.md). -/

namespace Sys2Proof.Machine

/-- In (R85): suspend if the input queue is empty, before the write target is looked at (R138 (8)); else store its head
and take it off. -/
def execIn (a : Param) (s : State) : Host.Outcome State Fault Refusal :=
  match s.inq with
  | [] => .next s.suspend
  | v :: _ =>
    s.commit (do
      let d ← s.wa (Instr.inp a).word a
      pure ((s.setCell d v).popIn.advance 2))

/-- Out (R86): append the resolved value to the output queue. It never blocks. -/
def execOut (a : Param) (s : State) : Host.Outcome State Fault Refusal :=
  s.commit (do
    let x ← s.rd a
    pure ((s.pushOut x).advance 2))

end Sys2Proof.Machine
end

