-- ==== Sys2Proof/Machine/Jumps.lean ====
section
/-! DEFINITION. Jnz and Jz (42_jumps.md). -/

namespace Sys2Proof.Machine

/-- Jnz (R90): "if a != 0: i_ptr = b, else fallthrough". The target is not checked here. -/
def execJnz (a b : Param) (s : State) : Host.Outcome State Fault Refusal :=
  s.jumpIf isNonZero a b

/-- Jz (R91): "if a == 0: i_ptr = b, else fallthrough". -/
def execJz (a b : Param) (s : State) : Host.Outcome State Fault Refusal :=
  s.jumpIf isZero a b

end Sys2Proof.Machine
end

