-- ==== Sys2Proof/Machine/Fetch.lean ====
section
/-! DEFINITION. Fetch, decode and parameter fetch (R61, R66, R67), and the placing of an instruction for the next
fetch. -/

namespace Sys2Proof.Machine

/-- The fault that a word which does not decode raises, with its record (R131, R134, R135). -/
def decodeFaultRecord (w : Int) : DecodeFault → FaultRecord
  | .invalidOpcode => .word .invalidOpcode w
  | .reservedDigits => .word .reservedDigits w
  | .invalidMode => .word .invalidMode w

/-- The parameter cells at `a`, `a + 1`, ..., `n` of them, in ascending order (R67). -/
def State.paramCells (s : State) : Nat → Int → Except FaultRecord (List Int)
  | 0, _ => .ok []
  | n + 1, a => do
    let r ← s.memRead a .param
    let rest ← s.paramCells n (a + 1)
    pure (r :: rest)

/-- The first three stages of a step (R111): the instruction word is read and decoded, then its parameter cells are
read. -/
def State.fetch (s : State) : Except FaultRecord Instr := do
  let w ← s.memRead s.pc .fetch
  match decodeHead s.extended w with
  | .error f => .error (decodeFaultRecord w f)
  | .ok h => do
    let raws ← s.paramCells h.op.arity (s.pc + 1)
    pure (h.instr (raws.getD 0 0) (raws.getD 1 0) (raws.getD 2 0))

/-- Write a list of cells from index `a` on, lengthening the memory where it is too short for them. Only the placing of
an instruction from outside does this: the machine itself never grows memory (R43). -/
def Memory.place (m : Memory) (a : Nat) : List Int → Memory
  | [] => m
  | v :: rest => Memory.place ((⟨max m.len (a + 1), m.cells⟩ : Memory).setCell a v) (a + 1) rest

/-- Where `withFetchWord` places an instruction: at `pc`, or at 0 where a `pc` outside every legal memory could not be
fetched from. -/
def State.fetchPlace (s : State) : Int :=
  if 0 ≤ s.pc ∧ s.pc + maxInstrCells + 4 ≤ (halfRange s.xlen : Int) then s.pc else 0

/-- The instruction whose bits are `w` placed where the next step fetches, the memory made long enough for it, and the
core put inside a run, which is the only state in which it steps (R27, R111). Log entry 5. -/
def State.placeInstr (s : State) (w : Nat) : State :=
  { s with
    mem := s.mem.place s.fetchPlace.toNat (cellsOfNat s.xlen maxInstrCells w)
    pc := s.fetchPlace
    rs := .running
    busy := true }

end Sys2Proof.Machine
end

