-- ==== Sys2Proof/Machine/Step.lean ====
section
/-! DEFINITION. One step of the core (R111). -/

namespace Sys2Proof.Machine

/-- One step (R111), taken exactly when `busy = true`: fetch, decode, parameter fetch and the instruction; a failed check
is the fault entry of R140. An idle core does not change (R117; log entry 6). -/
def step (s : State) : Host.Outcome State Fault Refusal :=
  if s.busy then
    match s.fetch with
    | .error f => .next (s.raise f)
    | .ok i => exec i s
  else .next s

/-- The state with the instruction whose bits are `w` as the one that the next step runs. No bit of `w` above `nbits`
is set, so `nbits` is not needed. -/
def State.withFetchWord (s : State) (_nbits w : Nat) : State := s.placeInstr w

end Sys2Proof.Machine
end

