-- ==== Sys2Proof/Machine/HostPort.lean ====
section
/-! DEFINITION. What the host does to a core and gets from it (R114 to R121, R160), and a run under fuel (R120). -/

namespace Sys2Proof.Machine

/-- The state that construction makes (R160), whatever state the core was in (R161). -/
def construct (xlen : Nat) (extended : Bool) (image : List Int) (pad : Nat) : State where
  mem      := Memory.ofImage image pad
  pc       := 0
  rb       := 0
  halted   := false
  rs       := .running
  busy     := false
  cause    := .noFault
  info     := 0
  kind     := .noKind
  inq      := []
  outq     := []
  extended := extended
  xlen     := xlen

/-- The bound of R8 on `MEM_LEN`, a premise on the host. -/
abbrev MemLenLegal (xlen : Nat) (image : List Int) (pad : Nat) : Prop := image.length + pad + 4 ≤ halfRange xlen

/-- `start` is permitted when `busy = false` and `rs` is RUNNING or SUSPENDED (R114). -/
def State.startPermitted (s : State) : Bool :=
  !s.busy && (s.rs == .running || s.rs == .suspended)

/-- The transition of a permitted `start(input)` (R114). -/
def State.startRun (s : State) (input : List Int) : State :=
  { s with inq := input, outq := [], rs := .running, busy := true }

/-- `start(input)`: R114 where it is permitted; elsewhere "the hardware ignores it" (R119; log entry 9). -/
def State.start (s : State) (input : List Int) : State :=
  if s.startPermitted then s.startRun input else s

/-- What can happen to a core (R110): a step of its own, and the two host actions that change it (R118). -/
inductive Event where
  | coreStep
  | hostStart (input : List Int)
  | hostReset (image : List Int) (pad : Nat)
  deriving DecidableEq, Repr

/-- The transition of an event. Premises on the host: a reset with more cells than R8 allows, and an image or the input of
a permitted start with a value outside `Int_X` (R122), are refused (log entry 8). Reset acts on a busy core too, "at any
time" (R118, R161, R116 (7)), although R137 and R139 say that host actions act on an idle core. DESIGN CHOICE (log entry
27). -/
def Event.apply (e : Event) (s : State) : Host.Outcome State Fault Refusal :=
  match e with
  | .coreStep => step s
  | .hostStart input =>
    if s.startPermitted = true ∧ ¬ AllInX s.xlen input then .refused .hostValueOutOfRange else .next (s.start input)
  | .hostReset image pad =>
    if ¬ MemLenLegal s.xlen image pad then .refused .memLenOutOfBounds
    else if ¬ AllInX s.xlen image then .refused .hostValueOutOfRange
    else .next (construct s.xlen s.extended image pad)

/-- A sequence of events, first event first. -/
def applyEvents : List Event → State → Host.Outcome State Fault Refusal
  | [], s => .next s
  | e :: es, s =>
    match e.apply s with
    | .next t => applyEvents es t
    | .fault f => .fault f
    | .refused r => .refused r

/-- Steps until the run ends (R115), at most `fuel` of them; `none` if it has not ended by then (R120). -/
def runToEnd : Nat → State → Option State
  | 0, s => if s.busy then none else some s
  | fuel + 1, s =>
    if s.busy then
      match step s with
      | .next t => runToEnd fuel t
      | .fault _ => none
      | .refused _ => none
    else some s

/-- Collect (R115, R118): all of `outq`, in order, while the core is idle. R118 permits it after a run and does not say
what it gives before the first one; the model gives the empty `outq` of reset there. DESIGN CHOICE (log entry 25). After an ignored start R119 keeps `outq`
and says that the host collects an empty output, R118 that a collect gives all of `outq`: the model gives the kept `outq`
here, and the empty output as the answer of `execute`. DESIGN CHOICE (log entry 28). -/
def State.collect (s : State) : Option (List Int) := if s.busy then none else some s.outq

/-- The output of a run that is a result: after Suspend or Halt, not after a fault (R115, R141). -/
def State.runResult (s : State) : Option (List Int) :=
  if s.busy then none
  else
    match s.rs with
    | .suspended => some s.outq
    | .halted => some s.outq
    | .running => none
    | .faulted => none

/-- The execute transaction, "`execute(input)`": start, the run, collect (R114, R115). A start that is not permitted runs
nothing, changes nothing and yields an empty output (R119; log entry 28). `none` where the run has not ended within the fuel (R120) or
the input breaks the premise of R122 (log entry 8). -/
def execute (fuel : Nat) (input : List Int) (s : State) : Option (List Int × State) :=
  if s.startPermitted then
    if AllInX s.xlen input then (runToEnd fuel (s.startRun input)).map (fun t => (t.outq, t)) else none
  else some ([], s)

/-- Reading `halted` (R37, R118). -/
def State.readHalted (s : State) : Option Bool := if s.busy then none else some s.halted

/-- The debug peek at a cell (R121). -/
def State.peekCell (s : State) (a : Int) : Option Int :=
  if s.busy then none else if s.mem.InRange a then some (s.mem.cell a.toNat) else none

/-- What the debug peek shows beside the cells (R121); `pc` and `rb` stay hidden (R37). -/
structure StatusView where
  rs    : RunState
  cause : Cause
  info  : Int
  kind  : AccessKind
  deriving DecidableEq, Repr

/-- The debug peek at `rs` and the fault record (R121). -/
def State.peekStatus (s : State) : Option StatusView :=
  if s.busy then none else some ⟨s.rs, s.cause, s.info, s.kind⟩

end Sys2Proof.Machine
end

