-- ==== Sys2Proof/Machine/Cores.lean ====
section
/-! DEFINITION. Several cores (R124) and the ring protocol of their host (R125). The cores share nothing. -/

namespace Sys2Proof.Machine

/-- An event of core `k` of a list of cores: its own state changes and no other (R124). No such core, no change. An event
that the model refuses, a reset above the bound of R8 or a reset or permitted start with a value outside `Int_X` (R122),
leaves every core as it was: the list has no refusal of its own. DESIGN CHOICE (log entry 8). -/
def coresApply (k : Nat) (e : Event) (cores : List State) : List State :=
  match cores[k]? with
  | none => cores
  | some s =>
    match e.apply s with
    | .next t => cores.set k t
    | .fault _ => cores
    | .refused _ => cores

/-- One round of the ring (R125): each core in turn is started with its own batch, the phase in the first round and
nothing later, followed by the output collected from the core before it. `none` where a run has not ended within the fuel
or a core is in FAULTED: R125 is silent on a fault in the ring, R141 says that the output of a faulted run is no result,
and the model lets the round end there without a signal, as the abort of the source does. DESIGN CHOICE (log entry
26). A core that has halted is started all the same: R166 says never to start one, R125 names only the last core's halt.
The start is ignored (R119), and the empty output goes on as the next batch. DESIGN CHOICE (log entry 29). -/
def ringRound (fuel : Nat) : List (State × List Int) → List Int → Option (List State × List Int)
  | [], signal => some ([], signal)
  | (core, own) :: rest, signal =>
    match execute fuel (own ++ signal) core with
    | none => none
    | some (out, core') =>
      if core'.rs = .faulted then none
      else
        match ringRound fuel rest out with
        | none => none
        | some (cores, final) => some (core' :: cores, final)

/-- The ring (R125): rounds, at most `rounds` of them, "until the last instance in the ring halts"; the last core's last
output is the result. The halt of another core does not end it (log entry 29). -/
def ringRun (fuel : Nat) : Nat → List (State × List Int) → List Int → Option (List Int)
  | 0, _, _ => none
  | rounds + 1, cores, signal =>
    match ringRound fuel cores signal with
    | none => none
    | some (cores', final) =>
      match cores'.getLast? with
      | none => none
      | some last => if last.halted then some final else ringRun fuel rounds (cores'.map (·, [])) final

end Sys2Proof.Machine
end

