-- ==== Sys2Proof/Safety.lean ====
section
/-! DEFINITION. What a claim calls the end of a program, a failure and a sound state (R34, R123, R141). -/

namespace Sys2Proof.Machine

/-- A program has ended exactly when `rs = HALTED` (R123). -/
abbrev State.Ended (s : State) : Prop := s.rs = .halted

/-- A failure, never a final state (R123, R141). -/
abbrev State.Failed (s : State) : Prop := s.rs = .faulted

/-- The invariants that hold between steps: R34 (a) to (d) and (g)'s bound, the canonical form of memory, what R28 says
of the fault record, R24 on the base variant, and R34 (f): every value is in `Int_X`. R34 (e) is about several
states. -/
structure State.Inv (s : State) : Prop where
  /-- R34 (a). -/
  halted_iff : s.halted = true ↔ s.rs = .halted
  /-- R34 (b). -/
  busy_running : s.busy = true → s.rs = .running
  /-- R34 (c): the input queue is empty and an In stands at `pc`, its parameter cell in range. -/
  suspended_at_in : s.rs = .suspended → s.inq = [] ∧ ∃ a, s.fetch = .ok (.inp a)
  /-- R34 (d), and the converse from R28: the record is written on the transition to FAULTED only. -/
  faulted_iff : s.rs = .faulted ↔ s.cause ≠ .noFault
  /-- R28, R35: no fault, an empty record. -/
  no_fault_record : s.cause = .noFault → s.info = 0 ∧ s.kind = .noKind
  /-- R28: an access kind for an AddressFault and for no other fault. -/
  kind_iff : s.kind ≠ .noKind ↔ s.cause = .addressFault
  /-- The canonical form of memory (log entry 3). -/
  mem_wf : s.mem.wf = true
  /-- R8. -/
  mem_bound : s.mem.len + 4 ≤ halfRange s.xlen
  /-- R34 (f), for the cells listed; a cell not listed is 0. -/
  cells_inX : ∀ c ∈ s.mem.cells, InX s.xlen c.2
  /-- R34 (f). -/
  pc_inX : InX s.xlen s.pc
  /-- R34 (f). -/
  rb_inX : InX s.xlen s.rb
  /-- R34 (f). -/
  inq_inX : AllInX s.xlen s.inq
  /-- R34 (f). -/
  outq_inX : AllInX s.xlen s.outq
  /-- R24: in the base variant `rb` reads as 0. -/
  base_variant : s.extended = false → s.rb = 0

/-- A run from `s` under fuel that ended without a fault (R115, R141). -/
def State.RunsSafely (fuel : Nat) (s : State) : Prop :=
  ∃ t, runToEnd fuel s = some t ∧ ¬ t.Failed

end Sys2Proof.Machine
end

