-- ==== Sys2Proof/Certificates/Slice0/Obligations.lean ====
section
/-! DEFINITION. The statements for the provers, and the words they are said in. `Sys2Proof.Claims` restates the spec's
operand rules and the frame without the model's own resolution functions, so that a statement does not lean on what it
is about. -/

namespace Sys2Proof.Claims

open Sys2Proof.Machine

/-- The value that a read parameter has (R68). -/
def ReadsAs (s : State) (p : Param) (v : Int) : Prop :=
  match p.mode with
  | .position => s.mem.InRange p.raw ∧ s.mem.cell p.raw.toNat = v
  | .immediate => p.raw = v
  | .relative =>
    s.mem.InRange (p.raw + s.base) ∧ s.mem.cell (p.raw + s.base).toNat = v

/-- The out-of-range address that a read parameter names (R45, R68). -/
def ReadFaults (s : State) (p : Param) (a : Int) : Prop :=
  match p.mode with
  | .position => a = p.raw ∧ ¬ s.mem.InRange a
  | .immediate => False
  | .relative => a = p.raw + s.base ∧ ¬ s.mem.InRange a

/-- The index that a write parameter names (R69). -/
def WritesTo (s : State) (p : Param) (d : Nat) : Prop :=
  match p.mode with
  | .position => s.mem.InRange p.raw ∧ d = p.raw.toNat
  | .immediate => False
  | .relative => s.mem.InRange (p.raw + s.base) ∧ d = (p.raw + s.base).toNat

/-- The out-of-range address that a write parameter names (R46, R69). -/
def WriteFaults (s : State) (p : Param) (a : Int) : Prop :=
  match p.mode with
  | .position => a = p.raw ∧ ¬ s.mem.InRange a
  | .immediate => False
  | .relative => a = p.raw + s.base ∧ ¬ s.mem.InRange a

/-- The state after the fault entry of R140 from `s`: the record, `rs` and `busy`, and nothing else. -/
def Faulted (s : State) (cause : Cause) (info : Int) (kind : AccessKind) : State :=
  { s with cause := cause, info := info, kind := kind, rs := .faulted, busy := false }

/-- The state after a suspension of `s` (R85). -/
def Suspended (s : State) : State := { s with rs := .suspended, busy := false }

/-- The state after Halt in `s` (R101). -/
def HaltedFrom (s : State) : State := { s with halted := true, rs := .halted, busy := false }

/-- `r` is `wrap_X(v)` (R11) for the `XLEN` of the core: the element of `Int_X` congruent to `v` modulo `2^XLEN`. -/
def IsWrapOf (s : State) (r v : Int) : Prop := InX s.xlen r ∧ ∃ q : Int, v = r + q * 2 ^ s.xlen

/-- Every cell and the length of memory are as before. -/
def MemoryKept (s t : State) : Prop := t.mem.len = s.mem.len ∧ ∀ a, t.mem.cell a = s.mem.cell a

/-- Cell `d` holds `v`; every other cell and the length of memory are as before. -/
def OneCellStored (s t : State) (d : Nat) (v : Int) : Prop :=
  t.mem.len = s.mem.len ∧ t.mem.cell d = v ∧ ∀ a, a ≠ d → t.mem.cell a = s.mem.cell a

/-- The run state, `halted`, the fault record and the parameters of the core are as before. -/
def ControlKept (s t : State) : Prop :=
  t.halted = s.halted ∧ t.rs = s.rs ∧ t.busy = s.busy ∧ t.cause = s.cause ∧ t.info = s.info ∧ t.kind = s.kind ∧
    t.extended = s.extended ∧ t.xlen = s.xlen

/-- The cells from address `a` on, at most `n` of them, cut where memory ends. -/
def cellsFrom (s : State) : Nat → Int → List Int
  | 0, _ => []
  | n + 1, a => if s.mem.InRange a then s.mem.cell a.toNat :: cellsFrom s n (a + 1) else []

/-- The first parameter cell outside memory is an AddressFault of kind `param` (R67), for the instruction `i` at `pc`. -/
def MissingCellsFault (i : Instr) : Prop :=
  ∀ (s : State) (k : Nat), s.busy = true → s.mem.InRange s.pc → s.mem.cell s.pc.toNat = i.word →
    i.legal s.extended = true → 1 ≤ k → k ≤ i.params.length →
    (∀ j : Nat, 1 ≤ j → j < k → s.mem.InRange (s.pc + j)) → ¬ s.mem.InRange (s.pc + k) →
    step s = .next (Faulted s .addressFault (s.pc + k) .param)

/-- What R80, R81, R95 and R96 say of an instruction with two read parameters and a write target, `result s x y v` being
"`v` is what a core in `s` computes from `x` and `y`": its word, its exceptions in their order, its result and its frame. -/
def ComputesAndStores (i : Instr) (op : Nat) (a b c : Param) (result : State → Int → Int → Int → Prop) : Prop :=
  i.word = 10000 * c.mode.digit + 1000 * b.mode.digit + 100 * a.mode.digit + op ∧
  MissingCellsFault i ∧
  ∀ s : State,
    (∀ e, ReadFaults s a e → exec i s = .next (Faulted s .addressFault e .read)) ∧
    (∀ x e, ReadsAs s a x → ReadFaults s b e → exec i s = .next (Faulted s .addressFault e .read)) ∧
    (∀ x y, ReadsAs s a x → ReadsAs s b y → c.mode = .immediate →
      exec i s = .next (Faulted s .immediateWriteTarget i.word .noKind)) ∧
    (∀ x y e, ReadsAs s a x → ReadsAs s b y → WriteFaults s c e →
      exec i s = .next (Faulted s .addressFault e .write)) ∧
    (∀ x y d, 0 < s.xlen → s.mem.wf = true → ReadsAs s a x → ReadsAs s b y → WritesTo s c d →
      ∃ t v, exec i s = .next t ∧ result s x y v ∧ OneCellStored s t d v ∧ t.pc = s.pc + 4 ∧ t.rb = s.rb ∧
        t.inq = s.inq ∧ t.outq = s.outq ∧ ControlKept s t)

/-- What R90 and R91 say of a jump that is taken when `taken` holds of its first operand. -/
def JumpsWhen (i : Instr) (op : Nat) (a b : Param) (taken : Int → Prop) : Prop :=
  i.word = 1000 * b.mode.digit + 100 * a.mode.digit + op ∧
  MissingCellsFault i ∧
  ∀ s : State,
    (∀ e, ReadFaults s a e → exec i s = .next (Faulted s .addressFault e .read)) ∧
    (∀ x e, ReadsAs s a x → ReadFaults s b e → exec i s = .next (Faulted s .addressFault e .read)) ∧
    (∀ x y, ReadsAs s a x → ReadsAs s b y →
      ∃ t, exec i s = .next t ∧ (taken x → t.pc = y) ∧ (¬ taken x → t.pc = s.pc + 3) ∧
        MemoryKept s t ∧ t.rb = s.rb ∧ t.inq = s.inq ∧ t.outq = s.outq ∧ ControlKept s t)

/-- `v` is what the instruction stores in `s`, its source operands being readable (R80, R81, R85, R95, R96). -/
def Stores (s : State) (i : Instr) (v : Int) : Prop :=
  match i with
  | .add a b _ => ∃ x y, ReadsAs s a x ∧ ReadsAs s b y ∧ IsWrapOf s v (x + y)
  | .mul a b _ => ∃ x y, ReadsAs s a x ∧ ReadsAs s b y ∧ IsWrapOf s v (x * y)
  | .lt a b _ => ∃ x y, ReadsAs s a x ∧ ReadsAs s b y ∧ (x < y → v = 1) ∧ (¬ x < y → v = 0)
  | .eq a b _ => ∃ x y, ReadsAs s a x ∧ ReadsAs s b y ∧ (x = y → v = 1) ∧ (x ≠ y → v = 0)
  | .inp _ => ∃ rest, s.inq = v :: rest
  | .out _ | .jnz _ _ | .jz _ _ | .changeBase _ | .halt => False

/-- The cause that a word which does not decode raises (R131, R134, R135). -/
def causeOf : DecodeFault → Cause
  | .invalidOpcode => .invalidOpcode
  | .reservedDigits => .reservedDigits
  | .invalidMode => .invalidMode

/-- The fault record is as before unless the state is FAULTED (R28). -/
def RecordKeptUnlessFaulted (s t : State) : Prop :=
  (t.cause = s.cause ∧ t.info = s.info ∧ t.kind = s.kind) ∨ t.rs = .faulted

/-- The event is a reset. -/
def IsReset : Event → Prop
  | .coreStep => False
  | .hostStart _ => False
  | .hostReset _ _ => True

end Sys2Proof.Claims

open Sys2Proof Sys2Proof.Machine Sys2Proof.Claims

/-! ### Encoding -/

/-- Words written out from R62, R63, R77 and the examples of 95_test_vectors.md decode to what they stand for. -/
def Obligations.WordsOfTheSpecDecode : Prop :=
  decode true [1002, 4, 3, 4] = .ok (.mul ⟨.position, 4⟩ ⟨.immediate, 3⟩ ⟨.position, 4⟩, []) ∧
  decode true [21101, 3, 4, 2] = .ok (.add ⟨.immediate, 3⟩ ⟨.immediate, 4⟩ ⟨.relative, 2⟩, []) ∧
  decode true [203, -1] = .ok (.inp ⟨.relative, -1⟩, []) ∧
  decode true [104, -9, 99] = .ok (.out ⟨.immediate, -9⟩, [99]) ∧
  decode true [105, 1, 8] = .ok (.jnz ⟨.immediate, 1⟩ ⟨.position, 8⟩, []) ∧
  decode true [2106, 0, -1] = .ok (.jz ⟨.immediate, 0⟩ ⟨.relative, -1⟩, []) ∧
  decode true [7, 5, 6, 7] = .ok (.lt ⟨.position, 5⟩ ⟨.position, 6⟩ ⟨.position, 7⟩, []) ∧
  decode true [1008, 100, 16, 101] = .ok (.eq ⟨.position, 100⟩ ⟨.immediate, 16⟩ ⟨.position, 101⟩, []) ∧
  decode true [209, 1] = .ok (.changeBase ⟨.relative, 1⟩, []) ∧
  decode true [99] = .ok (.halt, [])

/-- Decoding the cells that the encoder writes gives the instruction back with every mode and raw value, and leaves the
cells after it, in each variant that has the instruction (R60, R62, R66, R67). -/
def Obligations.DecodeOfEncodeIsTheInstruction : Prop :=
  ∀ (extended : Bool) (i : Instr) (rest : List Int), i.legal extended = true →
    decode extended (encode i ++ rest) = .ok (i, rest)

/-- Each list of cells has one meaning: what decodes to an instruction is the encoding of that instruction, and the
instruction is legal in the variant. -/
def Obligations.EncodeOfDecodeIsTheCells : Prop :=
  ∀ (extended : Bool) (cells rest : List Int) (i : Instr), decode extended cells = .ok (i, rest) →
    i.legal extended = true ∧ encode i ++ rest = cells

/-- The words that decode are exactly the numbers `10000*m3 + 1000*m2 + 100*m1 + op` of R77: an opcode of the table, the
digits of legal modes for the parameters it has, and 0 for those it has not. -/
def Obligations.TheWordsThatDecode : Prop :=
  ∀ (extended : Bool) (w : Int) (h : Head),
    decodeHead extended w = .ok h ↔
      h.op.legal extended = true ∧ h.m1.legal extended = true ∧ h.m2.legal extended = true ∧
      h.m3.legal extended = true ∧ (h.op.arity < 1 → h.m1 = .position) ∧ (h.op.arity < 2 → h.m2 = .position) ∧
      (h.op.arity < 3 → h.m3 = .position) ∧
      w = 10000 * h.m3.digit + 1000 * h.m2.digit + 100 * h.m1.digit + h.op.code

/-! ### The fetch stages of a step -/

/-- R131: a negative word, or one whose last two digits are in no row of the variant's opcode table, is
`InvalidOpcode`, code 1, recorded with `info = w` and no kind; in the base variant 09 is no row. -/
def Obligations.InvalidOpcodeIsRaised : Prop :=
  Cause.invalidOpcode.code = 1 ∧
  ∀ (s : State) (w : Int), s.busy = true → s.mem.InRange s.pc → s.mem.cell s.pc.toNat = w →
    (w < 0 ∨ ∀ op : Opcode, op.legal s.extended = true → w % 100 ≠ op.code) →
    step s = .next (Faulted s .invalidOpcode w .noKind)

/-- A digit that the instruction does not use and that is not 0 is `ReservedDigits`, code 5, before any mode digit is
looked at. This is the spec's own choice (D6, D11; log entry 12). -/
def Obligations.ReservedDigitsAreRaised : Prop :=
  Cause.reservedDigits.code = 5 ∧
  ∀ (s : State) (w : Int) (op : Opcode), s.busy = true → s.mem.InRange s.pc →
    s.mem.cell s.pc.toNat = w → 0 ≤ w → op.legal s.extended = true → w % 100 = op.code →
    (w / 100000 ≠ 0 ∨ ∃ k : Nat, op.arity < k ∧ k ≤ 3 ∧ w / 10 ^ (k + 1) % 10 ≠ 0) →
    step s = .next (Faulted s .reservedDigits w .noKind)

/-- A mode digit that selects no mode of the variant is `InvalidMode`, code 4. This is the spec's own choice (D5, D11;
log entry 12). -/
def Obligations.InvalidModeIsRaised : Prop :=
  Cause.invalidMode.code = 4 ∧
  ∀ (s : State) (w : Int) (op : Opcode) (k : Nat), s.busy = true → s.mem.InRange s.pc →
    s.mem.cell s.pc.toNat = w → 0 ≤ w → op.legal s.extended = true → w % 100 = op.code →
    w / 100000 = 0 → (∀ j : Nat, op.arity < j → j ≤ 3 → w / 10 ^ (j + 1) % 10 = 0) →
    1 ≤ k → k ≤ op.arity →
    (∀ m : Mode, m.legal s.extended = true → w / 10 ^ (k + 1) % 10 ≠ m.digit) →
    step s = .next (Faulted s .invalidMode w .noKind)

/-- A `pc` outside memory is an AddressFault of kind `fetch`, whatever memory holds; so is the first step of a core
constructed with no cells (30_encoding.md section 1; 70_reset_and_hazards.md section 1). -/
def Obligations.FetchOutsideMemoryFaults : Prop :=
  (∀ s : State, s.busy = true → ¬ s.mem.InRange s.pc →
    step s = .next (Faulted s .addressFault s.pc .fetch)) ∧
  (∀ (xlen : Nat) (extended : Bool) (input : List Int),
    step ((construct xlen extended [] 0).start input) =
      .next (Faulted ((construct xlen extended [] 0).start input) .addressFault 0 .fetch))

/-- R67: after a successful decode the parameter cells are read in ascending order, the first outside memory faults
whatever the modes, and with all of them in memory the step runs the instruction with the raw values they hold. -/
def Obligations.ParameterCellsAreFetchedInOrder : Prop :=
  ∀ i : Instr, MissingCellsFault i ∧
    ∀ s : State, s.busy = true → s.mem.InRange s.pc → s.mem.cell s.pc.toNat = i.word →
      i.legal s.extended = true →
      (∀ (k : Nat) (p : Param), i.params[k]? = some p →
        s.mem.InRange (s.pc + k + 1) ∧ s.mem.cell (s.pc + k + 1).toNat = p.raw) →
      step s = exec i s

/-- A step runs the instruction that the cells at `pc` decode to, and raises the fault of the stage that fails otherwise
(50_run_control.md section 2). -/
def Obligations.StepRunsTheDecodedInstruction : Prop :=
  ∀ s : State, s.busy = true →
    (∀ i rest, decode s.extended (cellsFrom s 4 s.pc) = .ok (i, rest) → step s = exec i s) ∧
    (∀ k, decode s.extended (cellsFrom s 4 s.pc) = .error (.missingCell k) →
      step s = .next (Faulted s .addressFault (s.pc + k) (if k = 0 then .fetch else .param))) ∧
    (∀ f, decode s.extended (cellsFrom s 4 s.pc) = .error (.fault f) →
      step s = .next (Faulted s (causeOf f) (s.mem.cell s.pc.toNat) .noKind))

/-! ### Operand resolution -/

/-- R68: read resolution yields the value of `ReadsAs` and nothing else, and an out-of-range address is an AddressFault
of kind `read` with the address as `info`. -/
def Obligations.ReadResolution : Prop :=
  ∀ (s : State) (p : Param),
    (∀ v, s.rd p = .ok v ↔ ReadsAs s p v) ∧
    (∀ f, s.rd p = .error f ↔ ∃ a, ReadFaults s p a ∧ f = ⟨.addressFault, a, .read⟩)

/-- R69: write resolution yields the index of `WritesTo` and nothing else; `Immediate` is `ImmediateWriteTarget`; an
out-of-range address is an AddressFault of kind `write`. -/
def Obligations.WriteResolution : Prop :=
  ∀ (s : State) (w : Int) (p : Param),
    (∀ d, s.wa w p = .ok d ↔ WritesTo s p d) ∧
    (∀ f, s.wa w p = .error f ↔
      (p.mode = .immediate ∧ f = ⟨.immediateWriteTarget, w, .noKind⟩) ∨
      ∃ a, WriteFaults s p a ∧ f = ⟨.addressFault, a, .write⟩)

/-! ### The instructions -/

/-- R80, Add: "mem[c] = a + b", the exact sum wrapped. -/
def Obligations.AddStoresTheWrappedSum : Prop :=
  ∀ a b c : Param, ComputesAndStores (.add a b c) 1 a b c (fun s x y v => IsWrapOf s v (x + y))

/-- R81, Mul: "mem[c] = a * b", the exact product wrapped. -/
def Obligations.MulStoresTheWrappedProduct : Prop :=
  ∀ a b c : Param, ComputesAndStores (.mul a b c) 2 a b c (fun s x y v => IsWrapOf s v (x * y))

/-- R95, Lt: 1 if `a < b` as signed integers, else 0. -/
def Obligations.LtStoresTheSignedComparison : Prop :=
  ∀ a b c : Param, ComputesAndStores (.lt a b c) 7 a b c
    (fun _ x y v => (x < y → v = 1) ∧ (¬ x < y → v = 0))

/-- R96, Eq: 1 if the two values are equal in all bits, else 0. -/
def Obligations.EqStoresTheEquality : Prop :=
  ∀ a b c : Param, ComputesAndStores (.eq a b c) 8 a b c
    (fun _ x y v => (x = y → v = 1) ∧ (x ≠ y → v = 0))

/-- In (41_io.md): an empty input queue suspends, whatever the write target; else the write target is resolved, the head
is stored there and taken off. That the queue is tested before the target is the spec's own choice (D12; log entry
14). -/
def Obligations.InSuspendsOrStoresTheHead : Prop :=
  ∀ a : Param,
    (Instr.inp a).word = 100 * a.mode.digit + 3 ∧
    MissingCellsFault (.inp a) ∧
    ∀ s : State,
      (s.inq = [] → exec (.inp a) s = .next (Suspended s)) ∧
      (∀ v rest, s.inq = v :: rest → a.mode = .immediate →
        exec (.inp a) s = .next (Faulted s .immediateWriteTarget (Instr.inp a).word .noKind)) ∧
      (∀ v rest e, s.inq = v :: rest → WriteFaults s a e →
        exec (.inp a) s = .next (Faulted s .addressFault e .write)) ∧
      (∀ v rest d, s.mem.wf = true → s.inq = v :: rest → WritesTo s a d →
        ∃ t, exec (.inp a) s = .next t ∧ OneCellStored s t d v ∧ t.inq = rest ∧ t.pc = s.pc + 2 ∧ t.rb = s.rb ∧
          t.outq = s.outq ∧ ControlKept s t)

/-- R86, Out: the resolved value is appended to the output queue; it never blocks. -/
def Obligations.OutAppendsItsOperand : Prop :=
  ∀ a : Param,
    (Instr.out a).word = 100 * a.mode.digit + 4 ∧
    MissingCellsFault (.out a) ∧
    ∀ s : State,
      (∀ e, ReadFaults s a e → exec (.out a) s = .next (Faulted s .addressFault e .read)) ∧
      (∀ x, ReadsAs s a x →
        ∃ t, exec (.out a) s = .next t ∧ t.outq = s.outq ++ [x] ∧ t.pc = s.pc + 2 ∧ MemoryKept s t ∧ t.rb = s.rb ∧
          t.inq = s.inq ∧ ControlKept s t)

/-- Jnz (42_jumps.md): the target if the first operand is not 0, else `pc + 3`. That both operands are resolved in any
case, and that the target is not checked here, are the spec's own choices (D27, D8; log entries 13 and 15). -/
def Obligations.JnzJumpsWhenNotZero : Prop :=
  ∀ a b : Param, JumpsWhen (.jnz a b) 5 a b (fun x => x ≠ 0)

/-- Jz (42_jumps.md): the target if the first operand is 0, else `pc + 3`; D27 and D8 as for Jnz (log entries 13 and
15). -/
def Obligations.JzJumpsWhenZero : Prop :=
  ∀ a b : Param, JumpsWhen (.jz a b) 6 a b (fun x => x = 0)

/-- R100, ChangeBase: `rb` becomes the exact sum of the old `rb` and the operand, wrapped; the operand is resolved with
the old `rb`. With `EXTENDED = false` its words are invalid opcodes. -/
def Obligations.ChangeBaseAddsToTheBase : Prop :=
  ∀ a : Param,
    (Instr.changeBase a).word = 100 * a.mode.digit + 9 ∧
    MissingCellsFault (.changeBase a) ∧
    decodeHead false (Instr.changeBase a).word = .error .invalidOpcode ∧
    ∀ s : State,
      (∀ e, ReadFaults s a e → exec (.changeBase a) s = .next (Faulted s .addressFault e .read)) ∧
      (∀ x, 0 < s.xlen → s.extended = true → ReadsAs s a x →
        ∃ t, exec (.changeBase a) s = .next t ∧ IsWrapOf s t.rb (s.rb + x) ∧ t.pc = s.pc + 2 ∧
          MemoryKept s t ∧ t.inq = s.inq ∧ t.outq = s.outq ∧ ControlKept s t)

/-- Halt (44_base_and_halt.md): `99` is its only word, and it writes `halted`, `rs` and `busy` and nothing else. That
`pc` stays on the Halt word is the spec's own choice (D13; log entry 16). -/
def Obligations.HaltStopsTheCore : Prop :=
  (∀ (extended : Bool) (w : Int), (∃ h, decodeHead extended w = .ok h ∧ h.op = .halt) ↔ w = 99) ∧
  (∀ s : State, exec .halt s = .next (HaltedFrom s)) ∧
  (∀ s : State, s.busy = true → s.mem.InRange s.pc → s.mem.cell s.pc.toNat = 99 →
    step s = .next (HaltedFrom s))

/-- R83, mode parity: replacing a read parameter by another with the same value changes nothing. An instruction with an
`Immediate` write target still faults alike; there only `info`, which is the instruction word, may differ. -/
def Obligations.ModeParity : Prop :=
  ∀ (s : State) (p q : Param) (v : Int), ReadsAs s p v → ReadsAs s q v →
    exec (.out p) s = exec (.out q) s ∧ exec (.changeBase p) s = exec (.changeBase q) s ∧
    (∀ b, exec (.jnz p b) s = exec (.jnz q b) s ∧ exec (.jnz b p) s = exec (.jnz b q) s ∧
      exec (.jz p b) s = exec (.jz q b) s ∧ exec (.jz b p) s = exec (.jz b q) s) ∧
    ∀ mk ∈ [Instr.add, Instr.mul, Instr.lt, Instr.eq], ∀ b c,
      (c.mode ≠ .immediate →
        exec (mk p b c) s = exec (mk q b c) s ∧ exec (mk b p c) s = exec (mk b q c) s) ∧
      (c.mode = .immediate →
        (∃ t t', exec (mk p b c) s = .next t ∧ exec (mk q b c) s = .next t' ∧ t.rs = .faulted ∧
          { t with info := 0 } = { t' with info := 0 }) ∧
        (∃ t t', exec (mk b p c) s = .next t ∧ exec (mk b q c) s = .next t' ∧ t.rs = .faulted ∧
          { t with info := 0 } = { t' with info := 0 }))

/-- The comparison laws (43_compare.md): of `a < b`, `a == b`, `b < a` exactly one gives 1, and the others 0. -/
def Obligations.ComparisonLaws : Prop :=
  ∀ x y : Int,
    (aluLt x y = 1 ∧ aluEq x y = 0 ∧ aluLt y x = 0) ∨
    (aluLt x y = 0 ∧ aluEq x y = 1 ∧ aluLt y x = 0) ∨
    (aluLt x y = 0 ∧ aluEq x y = 0 ∧ aluLt y x = 1)

/-! ### Frames -/

/-- Out, Jnz, Jz, ChangeBase and Halt, on every path: no cell changes; `outq` only by Out, `rb` only by ChangeBase,
`halted` only by Halt; the fault record only on the way to FAULTED. -/
def Obligations.FrameOfInstructionsThatStoreNothing : Prop :=
  ∀ (s t : State) (i : Instr), i.writeParam = none → exec i s = .next t →
    MemoryKept s t ∧ t.inq = s.inq ∧ t.extended = s.extended ∧ t.xlen = s.xlen ∧ RecordKeptUnlessFaulted s t ∧
    (i.opcode ≠ .out → t.outq = s.outq) ∧ (i.opcode ≠ .changeBase → t.rb = s.rb) ∧
    (i.opcode ≠ .halt → t.halted = s.halted)

/-- Add, Mul, Lt, Eq and In, on every path: no cell changes but the one that the write parameter names (none where it
names none); `rb`, `outq` and `halted` do not change; `inq` only by In; the fault record only on the way to FAULTED. -/
def Obligations.FrameOfInstructionsThatStore : Prop :=
  ∀ (s t : State) (i : Instr) (c : Param), i.writeParam = some c → exec i s = .next t →
    (∀ d, WritesTo s c d → ∀ a, a ≠ d → t.mem.cell a = s.mem.cell a) ∧
    ((∀ d, ¬ WritesTo s c d) → ∀ a, t.mem.cell a = s.mem.cell a) ∧
    t.mem.len = s.mem.len ∧ t.rb = s.rb ∧ t.outq = s.outq ∧ t.halted = s.halted ∧ t.extended = s.extended ∧
    t.xlen = s.xlen ∧ RecordKeptUnlessFaulted s t ∧ (i.opcode ≠ .inp → t.inq = s.inq)

/-! ### The machine as a whole -/

/-- R112: a step is all-or-nothing. A failed check writes the fault record, `rs` and `busy` only; a suspension writes
`rs` and `busy` only; else the cell that the instruction's write parameter names (no cell where it has none), `pc`, `rb`
by ChangeBase, one queue operation and `halted`/`rs`/`busy` are written. -/
def Obligations.StepIsAllOrNothing : Prop :=
  ∀ s t : State, s.busy = true → step s = .next t →
    (∃ cause info kind, cause ≠ .noFault ∧ t = Faulted s cause info kind) ∨
    t = Suspended s ∨
    (t.cause = s.cause ∧ t.info = s.info ∧ t.kind = s.kind ∧ t.extended = s.extended ∧ t.xlen = s.xlen ∧
      t.mem.len = s.mem.len ∧
      (∃ i, s.fetch = .ok i ∧
        (∀ c d, i.writeParam = some c → WritesTo s c d → ∀ a, a ≠ d → t.mem.cell a = s.mem.cell a) ∧
        ((∀ c d, i.writeParam = some c → ¬ WritesTo s c d) → t.mem = s.mem) ∧
        (i.opcode ≠ .changeBase → t.rb = s.rb)) ∧
      ((t.inq = s.inq ∧ t.outq = s.outq) ∨ (t.outq = s.outq ∧ ∃ v, s.inq = v :: t.inq) ∨
        (t.inq = s.inq ∧ ∃ v, t.outq = s.outq ++ [v])) ∧
      ((t.halted = s.halted ∧ t.rs = s.rs ∧ t.busy = s.busy) ∨
        (t.halted = true ∧ t.rs = .halted ∧ t.busy = false)))

/-- A busy core always has a next state, and its step has exactly one of four outcomes: Continue, Suspend, Halt, Fault
(50_run_control.md section 2; the states are the spec's choices D10 and D15, log entry 7). -/
def Obligations.BusyStepHasOneOfFourOutcomes : Prop :=
  ∀ s : State, s.busy = true → s.rs = .running →
    ∃ t, step s = .next t ∧
      ((t.busy = true ∧ t.rs = .running ∧ t.halted = s.halted ∧ s.fetch ≠ .ok .halt) ∨
        (t = Suspended s ∧ s.inq = [] ∧ ∃ a, s.fetch = .ok (.inp a)) ∨
        (t = HaltedFrom s ∧ s.fetch = .ok .halt) ∨
        (∃ cause info kind, cause ≠ .noFault ∧ t = Faulted s cause info kind))

/-- Fault entry is precise: a step that ends in FAULTED leaves memory, `pc`, `rb`, `halted` and both queues as they were
before it, and records a cause, with an access kind exactly for an AddressFault (60_exceptions.md section 4; the state
FAULTED is the spec's choice D10, log entry 7). -/
def Obligations.FaultsArePrecise : Prop :=
  ∀ s t : State, s.busy = true → s.rs = .running → step s = .next t → t.rs = .faulted →
    t.mem = s.mem ∧ t.pc = s.pc ∧ t.rb = s.rb ∧ t.halted = s.halted ∧ t.inq = s.inq ∧ t.outq = s.outq ∧
    t.busy = false ∧ 1 ≤ t.cause.code ∧ t.cause.code ≤ 5 ∧ (t.kind ≠ .noKind ↔ t.cause.code = 2)

/-- R24: `rb` is written only by ChangeBase, it survives suspension and resumption, it is 0 after reset, and in the base
variant it is never written and reads as 0. Every Relative parameter, read or written, and ChangeBase read it. -/
def Obligations.BaseIsWrittenOnlyByChangeBase : Prop :=
  (∀ s t : State, step s = .next t → t.rb ≠ s.rb →
    s.busy = true ∧ s.extended = true ∧ ∃ a, s.fetch = .ok (.changeBase a)) ∧
  (∀ (s : State) (input : List Int), (s.start input).rb = s.rb) ∧
  (∀ xlen extended image pad, (construct xlen extended image pad).rb = 0) ∧
  (∀ s : State, (s.extended = true → s.base = s.rb) ∧ (s.extended = false → s.base = 0)) ∧
  (∀ (s : State) (p : Param), p.mode = .relative →
    s.rd p = s.memRead (p.raw + s.base) .read ∧
    ∀ w, s.wa w p = s.writeIndex (p.raw + s.base)) ∧
  (∀ (s : State) (x : Int), 0 < s.xlen → s.extended = true →
    ∃ t, exec (.changeBase ⟨.immediate, x⟩) s = .next t ∧ IsWrapOf s t.rb (s.rb + x))

/-- `halted` is set by Halt and by nothing else, no step and no start clears it, it is false after reset (R25), and a halted
core is left exactly as it is by every step and every start (50_run_control.md section 3: R117, and R119 with the spec's
choice D14; log entries 6 and 9). -/
def Obligations.HaltedIsSetOnlyByHalt : Prop :=
  (∀ s t : State, step s = .next t → t.halted ≠ s.halted →
    s.busy = true ∧ s.fetch = .ok .halt ∧ t.halted = true) ∧
  (∀ s : State, s.busy = true → s.fetch = .ok .halt → ∃ t, step s = .next t ∧ t.halted = true) ∧
  (∀ (s : State) (input : List Int), (s.start input).halted = s.halted) ∧
  (∀ xlen extended image pad, (construct xlen extended image pad).halted = false) ∧
  (∀ (s : State) (e : Event), s.Inv → s.halted = true → ¬ IsReset e → e.apply s = .next s)

/-- Memory is written only by Add, Mul, In, Lt and Eq, a start does not touch it, and its length never changes between
two resets (10_state.md section 1; 20_memory.md section 2). -/
def Obligations.MemoryIsWrittenOnlyByStores : Prop :=
  (∀ s t : State, step s = .next t → t.mem ≠ s.mem →
    s.busy = true ∧ ∃ i, s.fetch = .ok i ∧ i.opcode ∈ [Opcode.add, .mul, .inp, .lt, .eq]) ∧
  (∀ (s : State) (input : List Int), (s.start input).mem = s.mem) ∧
  (∀ s t : State, step s = .next t → t.mem.len = s.mem.len ∧ t.extended = s.extended ∧ t.xlen = s.xlen)

/-- Two memories in canonical form with the same length and the same cells are the same data (log entry 3, the model's
representation). -/
def Obligations.CanonicalMemoriesAreEqual : Prop :=
  ∀ m m' : Memory, m.wf = true → m'.wf = true → m.len = m'.len → (∀ a, m.cell a = m'.cell a) → m = m'

/-- Sequential flow stays exact: after an instruction that completes and is neither Halt nor a taken jump, `pc` is the
integer sum of the old `pc` and the instruction's length, and it is in `Int_X` (00_scope.md R8's bound is the spec's
choice D18, log entry 8). -/
def Obligations.PcAdvancesByTheLength : Prop :=
  ∀ (s t : State) (i : Instr), s.mem.len + 4 ≤ halfRange s.xlen → s.busy = true → s.fetch = .ok i →
    i.opcode ≠ .halt → (∀ a b, i = .jnz a b → ReadsAs s a 0) →
    (∀ a b, i = .jz a b → ∃ x, ReadsAs s a x ∧ x ≠ 0) → step s = .next t → t.busy = true →
    t.pc = s.pc + i.length ∧ InX s.xlen t.pc

/-- A taken jump to a target outside memory does not fault; the step after it does, at fetch, with the target as `info`
(42_jumps.md; the spec's choice D8, log entry 13). -/
def Obligations.BadJumpTargetFaultsAtTheNextFetch : Prop :=
  ∀ (s : State) (a b : Param) (x y : Int), s.busy = true → ReadsAs s a x → ReadsAs s b y →
    ¬ s.mem.InRange y →
    (x ≠ 0 → ∃ t, exec (.jnz a b) s = .next t ∧ t.busy = true ∧ t.pc = y ∧
      step t = .next (Faulted t .addressFault y .fetch)) ∧
    (x = 0 → ∃ t, exec (.jz a b) s = .next t ∧ t.busy = true ∧ t.pc = y ∧
      step t = .next (Faulted t .addressFault y .fetch))

/-- A store is seen by the next fetch (20_memory.md section 6), for every instruction that stores and every value: the
step after it decodes the cells from its `pc` on, and among them the one that was written holds the value stored, be it
the instruction word or a parameter cell. -/
def Obligations.StoreIsSeenByTheNextFetch : Prop :=
  ∀ (s : State) (i : Instr) (c : Param) (d : Nat) (v : Int), s.Inv → s.busy = true → s.fetch = .ok i →
    i.writeParam = some c → WritesTo s c d → Stores s i v →
    ∃ t, step s = .next t ∧ t.busy = true ∧ t.pc = s.pc + i.length ∧ t.mem.cell d = v ∧
      (∀ k : Nat, k < 4 → (d : Int) = t.pc + k → (cellsFrom t 4 t.pc)[k]? = some v) ∧
      (∀ j rest, decode t.extended (cellsFrom t 4 t.pc) = .ok (j, rest) → step t = exec j t) ∧
      (∀ f, decode t.extended (cellsFrom t 4 t.pc) = .error (.fault f) →
        step t = .next (Faulted t (causeOf f) (t.mem.cell t.pc.toNat) .noKind))

/-! ### Reset, host actions, runs -/

/-- Reset gives every piece of state the value of 70_reset_and_hazards.md section 1, from any state: the image, then
zeros, `pc = 0`, `rb = 0`, not halted, RUNNING, idle, no fault recorded, queues empty (the values of `busy`, the record
and the queues are the spec's choices D23 and D25, log entry 17). An image that breaks the host's premises, the bound of
R8 or the range of R122, is refused (log entry 8); that a busy core is reset too is log entry 27. -/
def Obligations.ResetGivesItsState : Prop :=
  ∀ (s : State) (image : List Int) (pad : Nat),
    (MemLenLegal s.xlen image pad → AllInX s.xlen image →
      ∃ t, (Event.hostReset image pad).apply s = .next t ∧ t.mem.len = image.length + pad ∧
        (∀ a v, image[a]? = some v → t.mem.cell a = v) ∧ (∀ a, image.length ≤ a → t.mem.cell a = 0) ∧
        t.pc = 0 ∧ t.rb = 0 ∧ t.halted = false ∧ t.rs = .running ∧ t.busy = false ∧ t.cause.code = 0 ∧ t.info = 0 ∧
        t.kind = .noKind ∧ t.inq = [] ∧ t.outq = [] ∧ t.extended = s.extended ∧ t.xlen = s.xlen) ∧
    (¬ MemLenLegal s.xlen image pad → (Event.hostReset image pad).apply s = .refused .memLenOutOfBounds) ∧
    (MemLenLegal s.xlen image pad → ¬ AllInX s.xlen image →
      (Event.hostReset image pad).apply s = .refused .hostValueOutOfRange)

/-- Constructing with image `I` and `PAD = p` equals constructing with image `I ++ [0]*p` and `PAD = 0`
(70_reset_and_hazards.md section 1; D25, log entry 17). -/
def Obligations.PaddingEqualsZeroCells : Prop :=
  ∀ (xlen : Nat) (extended : Bool) (image : List Int) (p : Nat),
    construct xlen extended image p = construct xlen extended (image ++ List.replicate p 0) 0

/-- `State.reset` is construction of a core of 64 bits from no image with the model's `PAD` (log entry 4, the model's
choice), and it meets the invariants of 10_state.md section 4. -/
def Obligations.ResetStateMeetsTheInvariants : Prop :=
  State.reset = construct Config.xlen Config.extended [] Config.resetPad ∧ State.reset.xlen = 64 ∧ State.reset.Inv

/-- Construction of a core of any width from any image of `Int_X` values within the bound of R8 meets the invariants of
10_state.md section 4. -/
def Obligations.ConstructionMeetsTheInvariants : Prop :=
  ∀ (xlen : Nat) (extended : Bool) (image : List Int) (pad : Nat), MemLenLegal xlen image pad → AllInX xlen image →
    (construct xlen extended image pad).Inv

/-- Every step keeps the invariants of 10_state.md section 4: `halted` exactly in HALTED, busy only in RUNNING, SUSPENDED
only at an In with the input queue empty, a cause recorded exactly in FAULTED, every cell, `pc`, `rb` and queue entry in
`Int_X` for the width of the core, memory canonical and within bounds. -/
def Obligations.StepKeepsTheInvariants : Prop :=
  ∀ s t : State, s.Inv → step s = .next t → t.Inv

/-- Every sequence of steps, starts and resets keeps the invariants of 10_state.md section 4. -/
def Obligations.EventsKeepTheInvariants : Prop :=
  ∀ (es : List Event) (s t : State), s.Inv → applyEvents es s = .next t → t.Inv

/-- HALTED and FAULTED are permanent: no sequence of steps and starts changes such a core in any way; only a reset does
(10_state.md section 4; 50_run_control.md section 3; 60_exceptions.md section 4; D10, D14, log entries 7 and 9). -/
def Obligations.HaltedAndFaultedArePermanent : Prop :=
  ∀ (es : List Event) (s : State), s.Inv → s.rs = .halted ∨ s.rs = .faulted → (∀ e ∈ es, ¬ IsReset e) →
    applyEvents es s = .next s

/-- An idle core does not change, whatever time passes (50_run_control.md section 3; that the model's step answers the
same state there is log entry 6). -/
def Obligations.IdleCoreDoesNotChange : Prop :=
  ∀ (n : Nat) (s : State), s.busy = false → applyEvents (List.replicate n .coreStep) s = .next s

/-- `start`: where it is permitted it loads the input, empties the output and sets the core running, and changes nothing
else; elsewhere nothing changes and the host gets an empty output (50_run_control.md sections 3 and 4; D14, D15, D16,
log entries 7, 9 and 21). As an event it does so where the input keeps the host's premise of R122, and is refused where
a permitted start breaks it (log entry 8). -/
def Obligations.StartLoadsTheInputOrIsIgnored : Prop :=
  ∀ (s : State) (input : List Int) (fuel : Nat),
    (s.busy = false → s.rs = .running ∨ s.rs = .suspended →
      s.start input = { s with inq := input, outq := [], rs := .running, busy := true } ∧
      (AllInX s.xlen input → (Event.hostStart input).apply s = .next (s.start input)) ∧
      (¬ AllInX s.xlen input → (Event.hostStart input).apply s = .refused .hostValueOutOfRange)) ∧
    (s.busy = true ∨ s.rs = .halted ∨ s.rs = .faulted →
      s.start input = s ∧ (Event.hostStart input).apply s = .next s ∧ execute fuel input s = some ([], s))

/-- A suspended core re-executes its In from the start: the next run begins with the same In, on the same memory, `pc`
and `rb`, with the new input (41_io.md; 50_run_control.md section 3). -/
def Obligations.ResumptionReexecutesTheIn : Prop :=
  ∀ (s : State), s.Inv → s.rs = .suspended →
    ∃ a, s.fetch = .ok (.inp a) ∧
      ∀ input, step (s.start input) = exec (.inp a) (s.start input) ∧ (s.start input).mem = s.mem ∧
        (s.start input).pc = s.pc ∧ (s.start input).rb = s.rb ∧ (s.start input).inq = input

/-- A run that has ended left the core idle, in SUSPENDED, HALTED or FAULTED, and more fuel gives the same end
(50_run_control.md section 3). -/
def Obligations.RunEndsIdleWhateverTheFuel : Prop :=
  ∀ (fuel : Nat) (s t : State), s.Inv → s.busy = true → runToEnd fuel s = some t →
    t.busy = false ∧ (t.rs = .suspended ∨ t.rs = .halted ∨ t.rs = .faulted) ∧
    ∀ more, runToEnd (fuel + more) s = some t

/-- Within a run, inputs are consumed in order from the front and outputs appended in order at the back; a run that ends
by suspension has consumed all its input (41_io.md). -/
def Obligations.RunKeepsTheOrderOfInputAndOutput : Prop :=
  ∀ (fuel : Nat) (s t : State), s.Inv → s.busy = true → runToEnd fuel s = some t →
    (∃ taken, s.inq = taken ++ t.inq) ∧ (∃ emitted, t.outq = s.outq ++ emitted) ∧ (t.rs = .suspended → t.inq = [])

/-- The execute transaction: its output is the `outq` that the run left, of an idle core, and it is a result after a
suspension or a halt and no result after a fault (50_run_control.md section 3; the last is the spec's choice D17, log
entry 18). -/
def Obligations.ExecuteReturnsTheOutputOfTheRun : Prop :=
  ∀ (fuel : Nat) (input out : List Int) (s t : State), s.Inv → s.startPermitted = true →
    execute fuel input s = some (out, t) →
    runToEnd fuel (s.startRun input) = some t ∧ t.collect = some out ∧
    (t.rs = .suspended ∨ t.rs = .halted → t.runResult = some out) ∧ (t.rs = .faulted → t.runResult = none)

/-- Events of different cores commute, and an event of one core leaves every other core as it was (50_run_control.md
section 6; that they share nothing at all is the spec's choice D26, log entry 19). -/
def Obligations.CoresAreIndependent : Prop :=
  ∀ (k l : Nat) (e f : Event) (cores : List State), k ≠ l →
    coresApply k e (coresApply l f cores) = coresApply l f (coresApply k e cores) ∧
    (coresApply k e cores)[l]? = cores[l]?
end

