-- ==== Sys2Proof/Laws/PerInstr.lean ====
section
/-! SUPPORT. The instruction word, per instruction: decoding the word that the encoder writes gives the opcode and the
modes back (R60, R66, R77). -/

namespace Sys2Proof

theorem Mode.digit_le (m : Mode) : m.digit ≤ 2 := by
  cases m <;> decide

theorem Opcode.code_lt (op : Opcode) : op.code < 100 := by
  cases op <;> decide

/-- A legal mode is the mode its digit selects. -/
theorem Mode.ofDigit_digit {extended : Bool} {m : Mode} (h : m.legal extended = true) :
    Mode.ofDigit extended m.digit = some m := by
  cases m <;> simp_all [Mode.legal, Mode.digit, Mode.ofDigit]

/-- A legal opcode is the opcode its code selects. -/
theorem Opcode.ofCode_code {extended : Bool} {op : Opcode} (h : op.legal extended = true) :
    Opcode.ofCode extended op.code = some op := by
  cases op <;> simp_all [Opcode.legal, Opcode.code, Opcode.ofCode]

/-- The digits of the number of R77 are the opcode and the modes it was made of. -/
theorem Head.number_digits (h : Head) :
    h.number % 100 = h.op.code ∧ digit h.number 2 = h.m1.digit ∧ digit h.number 3 = h.m2.digit ∧
      digit h.number 4 = h.m3.digit ∧ h.number / 100000 = 0 := by
  have h1 := h.m1.digit_le
  have h2 := h.m2.digit_le
  have h3 := h.m3.digit_le
  have ho := h.op.code_lt
  simp only [Head.number, digit, Nat.reducePow]
  omega

/-- The head has the digit 0 for every parameter its opcode does not have. -/
def Head.Reserved (h : Head) : Prop :=
  (h.op.arity < 1 → h.m1 = .position) ∧ (h.op.arity < 2 → h.m2 = .position) ∧ (h.op.arity < 3 → h.m3 = .position)

/-- Decoding the word made of a legal head with its reserved digits 0 gives the head back. -/
theorem decodeHead_number {extended : Bool} {h : Head} (ho : h.op.legal extended = true)
    (h1 : h.m1.legal extended = true) (h2 : h.m2.legal extended = true) (h3 : h.m3.legal extended = true)
    (hr : h.Reserved) : decodeHead extended h.number = .ok h := by
  obtain ⟨d0, d1, d2, d3, d4⟩ := h.number_digits
  have hz : reservedDigitSet h.op.arity h.number = false := by
    obtain ⟨r1, r2, r3⟩ := hr
    simp only [reservedDigitSet, d1, d2, d3, d4]
    simp only [bne_self_eq_false, Bool.false_or, Bool.or_eq_false_iff, Bool.and_eq_false_imp, decide_eq_true_eq]
    exact ⟨⟨fun h => by simp [r1 h, Mode.digit], fun h => by simp [r2 h, Mode.digit]⟩,
      fun h => by simp [r3 h, Mode.digit]⟩
  unfold decodeHead
  rw [if_neg (Int.not_lt.2 (Int.natCast_nonneg _)), Int.toNat_natCast, d0, Opcode.ofCode_code ho]
  simp only [hz, d1, d2, d3, Mode.ofDigit_digit h1, Mode.ofDigit_digit h2, Mode.ofDigit_digit h3]
  simp

/-- The instruction's word decodes, in every variant that has the instruction, to the opcode and modes it has. -/
def Laws.WordDecodes.Statement (i : Instr) : Prop :=
  ∀ extended : Bool, i.legal extended = true → decodeHead extended i.word = .ok i.head

namespace Laws.WordDecodes

/-- A position mode is legal in every variant. -/
theorem position_legal (extended : Bool) : Mode.legal extended .position = true := rfl

theorem three {i : Instr} {a b c : Param} (hp : i.params = [a, b, c]) (ha : i.opcode.arity = 3) : Statement i := by
  intro extended hl
  simp only [Instr.legal, hp, List.all_cons, List.all_nil, Bool.and_true, Bool.and_eq_true] at hl
  refine decodeHead_number (h := i.head) hl.1 ?_ ?_ ?_ ?_ <;> simp [Instr.head, hp, hl, Head.Reserved, ha]

theorem two {i : Instr} {a b : Param} (hp : i.params = [a, b]) (ha : i.opcode.arity = 2) : Statement i := by
  intro extended hl
  simp only [Instr.legal, hp, List.all_cons, List.all_nil, Bool.and_true, Bool.and_eq_true] at hl
  refine decodeHead_number (h := i.head) hl.1 ?_ ?_ ?_ ?_ <;>
    simp [Instr.head, hp, hl, Head.Reserved, ha, position_legal]

theorem one {i : Instr} {a : Param} (hp : i.params = [a]) (ha : i.opcode.arity = 1) : Statement i := by
  intro extended hl
  simp only [Instr.legal, hp, List.all_cons, List.all_nil, Bool.and_true, Bool.and_eq_true] at hl
  refine decodeHead_number (h := i.head) hl.1 ?_ ?_ ?_ ?_ <;>
    simp [Instr.head, hp, hl, Head.Reserved, ha, position_legal]

theorem add (a b c : Param) : Statement (.add a b c) := three rfl rfl
theorem mul (a b c : Param) : Statement (.mul a b c) := three rfl rfl
theorem inp (a : Param) : Statement (.inp a) := one rfl rfl
theorem out (a : Param) : Statement (.out a) := one rfl rfl
theorem jnz (a b : Param) : Statement (.jnz a b) := two rfl rfl
theorem jz (a b : Param) : Statement (.jz a b) := two rfl rfl
theorem lt (a b c : Param) : Statement (.lt a b c) := three rfl rfl
theorem eq (a b c : Param) : Statement (.eq a b c) := three rfl rfl
theorem changeBase (a : Param) : Statement (.changeBase a) := one rfl rfl
theorem halt : Statement .halt := by
  intro extended _
  cases extended <;> rfl

end Laws.WordDecodes

end Sys2Proof
end

