-- ==== Sys2Proof/Laws/Decode.lean ====
section
/-! SUPPORT. The decoder's tables read backwards, and the decoding of a list of cells
once its word is decoded. -/

namespace Sys2Proof

/-- What the opcode table selects is legal, and its code is the one looked up. -/
theorem Opcode.ofCode_eq_some {extended : Bool} {n : Nat} {op : Opcode} (h : Opcode.ofCode extended n = some op) :
    op.legal extended = true ∧ op.code = n := by
  unfold Opcode.ofCode at h
  split at h
  case h_9 =>
    cases extended
    · cases h
    · cases h
      exact ⟨rfl, rfl⟩
  all_goals
    cases h
    try exact ⟨rfl, rfl⟩

/-- A code that selects no row is the code of no legal opcode. -/
theorem Opcode.ofCode_eq_none {extended : Bool} {n : Nat} (h : Opcode.ofCode extended n = none) (op : Opcode)
    (hl : op.legal extended = true) : op.code ≠ n := by
  rintro rfl
  rw [Opcode.ofCode_code hl] at h
  cases h

/-- What a mode digit selects is legal, and its digit is the one looked up. -/
theorem Mode.ofDigit_eq_some {extended : Bool} {n : Nat} {m : Mode} (h : Mode.ofDigit extended n = some m) :
    m.legal extended = true ∧ m.digit = n := by
  unfold Mode.ofDigit at h
  split at h
  case h_3 =>
    cases extended
    · cases h
    · cases h
      exact ⟨rfl, rfl⟩
  all_goals
    cases h
    try exact ⟨rfl, rfl⟩

/-- A digit that selects no mode is the digit of no legal mode. -/
theorem Mode.ofDigit_eq_none {extended : Bool} {n : Nat} (h : Mode.ofDigit extended n = none) (m : Mode)
    (hl : m.legal extended = true) : m.digit ≠ n := by
  rintro rfl
  rw [Mode.ofDigit_digit hl] at h
  cases h

theorem decode_cons_fault {extended : Bool} {w : Int} {f : DecodeFault} (h : decodeHead extended w = .error f)
    (cells : List Int) : decode extended (w :: cells) = .error (.fault f) := by
  simp only [decode, h]

theorem decode_cons_head {extended : Bool} {w : Int} {hd : Head} (h : decodeHead extended w = .ok hd)
    (cells : List Int) : decode extended (w :: cells) = hd.takeParams cells := by
  simp only [decode, h]

end Sys2Proof
end

