-- ==== Sys2Proof/Laws/Memory.lean ====
section
/-! SUPPORT. Memory: the canonical form is kept by every operation, and what a cell reads as after each. -/

namespace Sys2Proof.Machine

@[simp] theorem Memory.setCell_len (m : Memory) (a : Nat) (v : Int) : (m.setCell a v).len = m.len := rfl

theorem cellsWf_cons (hi lo a : Nat) (v : Int) (rest : List (Nat × Int)) :
    cellsWf hi lo ((a, v) :: rest) = true ↔
      lo ≤ a ∧ a < hi ∧ v ≠ Memory.unlisted ∧ cellsWf hi (a + 1) rest = true := by
  simp [cellsWf, and_assoc]

/-- A smaller lower bound keeps the form. -/
theorem cellsWf_lower {hi lo lo' : Nat} (h : lo' ≤ lo) (cells : List (Nat × Int)) (hw : cellsWf hi lo cells = true) :
    cellsWf hi lo' cells = true := by
  cases cells with
  | nil => rfl
  | cons c rest =>
    obtain ⟨a, v⟩ := c
    rw [cellsWf_cons] at hw ⊢
    exact ⟨h.trans hw.1, hw.2⟩

/-- A larger upper bound keeps the form. -/
theorem cellsWf_upper {hi hi' : Nat} (h : hi ≤ hi') (cells : List (Nat × Int)) (lo : Nat)
    (hw : cellsWf hi lo cells = true) : cellsWf hi' lo cells = true := by
  induction cells generalizing lo with
  | nil => rfl
  | cons c rest ih =>
    obtain ⟨a, v⟩ := c
    rw [cellsWf_cons] at hw ⊢
    exact ⟨hw.1, hw.2.1.trans_le h, hw.2.2.1, ih _ hw.2.2.2⟩

/-- No cell below the lower bound is listed. -/
theorem lookupCell_below {hi lo a : Nat} (h : a < lo) (cells : List (Nat × Int)) (hw : cellsWf hi lo cells = true) :
    lookupCell cells a = Memory.unlisted := by
  induction cells generalizing lo with
  | nil => rfl
  | cons c rest ih =>
    obtain ⟨b, v⟩ := c
    rw [cellsWf_cons] at hw
    have hne : a ≠ b := by omega
    simpa [lookupCell, hne] using ih (lo := b + 1) (by omega) hw.2.2.2

theorem insertCell_wf {hi lo a : Nat} (hlo : lo ≤ a) (hhi : a < hi) (v : Int) (cells : List (Nat × Int))
    (hw : cellsWf hi lo cells = true) : cellsWf hi lo (insertCell a v cells) = true := by
  induction cells generalizing lo with
  | nil =>
    unfold insertCell
    split
    · rfl
    · exact (cellsWf_cons ..).2 ⟨hlo, hhi, ‹_›, rfl⟩
  | cons c rest ih =>
    obtain ⟨b, u⟩ := c
    have hw' := (cellsWf_cons ..).1 hw
    unfold insertCell
    split
    · split
      · exact hw
      · exact (cellsWf_cons ..).2 ⟨hlo, hhi, ‹_›, (cellsWf_cons ..).2 ⟨by omega, hw'.2⟩⟩
    · split
      · subst a
        split
        · exact cellsWf_lower (by omega) _ hw'.2.2.2
        · exact (cellsWf_cons ..).2 ⟨hlo, hhi, ‹_›, hw'.2.2.2⟩
      · exact (cellsWf_cons ..).2 ⟨hw'.1, hw'.2.1, hw'.2.2.1, ih (by omega) hw'.2.2.2⟩

/-- A write keeps the canonical form. -/
theorem Memory.setCell_wf {m : Memory} (hw : m.wf = true) {a : Nat} (ha : a < m.len) (v : Int) :
    (m.setCell a v).wf = true :=
  insertCell_wf (Nat.zero_le a) ha v m.cells hw

theorem lookupCell_insertCell_same {hi lo a : Nat} (v : Int) (cells : List (Nat × Int))
    (hw : cellsWf hi lo cells = true) : lookupCell (insertCell a v cells) a = v := by
  induction cells generalizing lo with
  | nil =>
    unfold insertCell
    split <;> simp_all [lookupCell]
  | cons c rest ih =>
    obtain ⟨b, u⟩ := c
    have hw' := (cellsWf_cons ..).1 hw
    unfold insertCell
    split
    · split
      · rw [lookupCell_below (lo := b) ‹_› _ ((cellsWf_cons ..).2 ⟨le_rfl, hw'.2⟩)]
        exact Eq.symm ‹_›
      · simp [lookupCell]
    · split
      · split
        · rw [lookupCell_below (lo := b + 1) (by omega) _ hw'.2.2.2]
          exact Eq.symm ‹_›
        · simp [lookupCell]
      · simpa [lookupCell, ‹¬ a = b›] using ih hw'.2.2.2

theorem lookupCell_insertCell_other {a b : Nat} (hne : b ≠ a) (v : Int) (cells : List (Nat × Int)) :
    lookupCell (insertCell a v cells) b = lookupCell cells b := by
  induction cells with
  | nil =>
    unfold insertCell
    split <;> simp [lookupCell, hne]
  | cons c rest ih =>
    obtain ⟨d, u⟩ := c
    unfold insertCell
    split
    · split <;> simp [lookupCell, hne]
    · split
      · subst a
        split <;> simp [lookupCell, hne]
      · simp [lookupCell, ih]

/-- A read of the cell written gives the value written. -/
theorem Memory.cell_setCell_same {m : Memory} (hw : m.wf = true) (a : Nat) (v : Int) : (m.setCell a v).cell a = v :=
  lookupCell_insertCell_same v m.cells hw

/-- A write leaves every other cell alone. -/
theorem Memory.cell_setCell_other (m : Memory) {a b : Nat} (hne : b ≠ a) (v : Int) :
    (m.setCell a v).cell b = m.cell b :=
  lookupCell_insertCell_other hne v m.cells

theorem cellsOfImage_wf (hi : Nat) (image : List Int) (a : Nat) (h : a + image.length ≤ hi) :
    cellsWf hi a (cellsOfImage a image) = true := by
  induction image generalizing a with
  | nil => rfl
  | cons v image ih =>
    rw [List.length_cons] at h
    have ih' := ih (a + 1) (by omega)
    unfold cellsOfImage
    split
    · exact cellsWf_lower (by omega) _ ih'
    · exact (cellsWf_cons ..).2 ⟨le_rfl, by omega, ‹_›, ih'⟩

/-- Construction gives a memory in canonical form. -/
theorem Memory.ofImage_wf (image : List Int) (pad : Nat) : (Memory.ofImage image pad).wf = true :=
  cellsOfImage_wf _ image 0 (by simp [Memory.ofImage])

/-- A longer memory with the same cells listed is in canonical form. -/
theorem Memory.lengthen_wf {m : Memory} (hw : m.wf = true) (n : Nat) : (⟨max m.len n, m.cells⟩ : Memory).wf = true :=
  cellsWf_upper (le_max_left ..) m.cells 0 hw

/-- Placing cells from outside keeps the canonical form. -/
theorem Memory.place_wf {m : Memory} (hw : m.wf = true) (a : Nat) (cells : List Int) : (m.place a cells).wf = true := by
  induction cells generalizing m a with
  | nil => exact hw
  | cons v rest ih =>
    exact ih (Memory.setCell_wf (Memory.lengthen_wf hw _) (by simp) v) (a + 1)

end Sys2Proof.Machine
end

