-- ==== Sys2Proof/Laws/State.lean ====
section
/-! SUPPORT. What each update of the state does to each field: one lemma per field and update. -/

namespace Sys2Proof.Machine

@[simp] theorem State.setCell_mem (s : State) (a : Nat) (v : Int) : (s.setCell a v).mem = s.mem.setCell a v := rfl
@[simp] theorem State.setCell_pc (s : State) (a : Nat) (v : Int) : (s.setCell a v).pc = s.pc := rfl
@[simp] theorem State.setCell_rb (s : State) (a : Nat) (v : Int) : (s.setCell a v).rb = s.rb := rfl
@[simp] theorem State.setCell_halted (s : State) (a : Nat) (v : Int) : (s.setCell a v).halted = s.halted := rfl
@[simp] theorem State.setCell_rs (s : State) (a : Nat) (v : Int) : (s.setCell a v).rs = s.rs := rfl
@[simp] theorem State.setCell_busy (s : State) (a : Nat) (v : Int) : (s.setCell a v).busy = s.busy := rfl
@[simp] theorem State.setCell_cause (s : State) (a : Nat) (v : Int) : (s.setCell a v).cause = s.cause := rfl
@[simp] theorem State.setCell_info (s : State) (a : Nat) (v : Int) : (s.setCell a v).info = s.info := rfl
@[simp] theorem State.setCell_kind (s : State) (a : Nat) (v : Int) : (s.setCell a v).kind = s.kind := rfl
@[simp] theorem State.setCell_inq (s : State) (a : Nat) (v : Int) : (s.setCell a v).inq = s.inq := rfl
@[simp] theorem State.setCell_outq (s : State) (a : Nat) (v : Int) : (s.setCell a v).outq = s.outq := rfl
@[simp] theorem State.setCell_extended (s : State) (a : Nat) (v : Int) : (s.setCell a v).extended = s.extended := rfl
@[simp] theorem State.setCell_xlen (s : State) (a : Nat) (v : Int) : (s.setCell a v).xlen = s.xlen := rfl

@[simp] theorem State.setPc_mem (s : State) (v : Int) : (s.setPc v).mem = s.mem := rfl
@[simp] theorem State.setPc_pc (s : State) (v : Int) : (s.setPc v).pc = v := rfl
@[simp] theorem State.setPc_rb (s : State) (v : Int) : (s.setPc v).rb = s.rb := rfl
@[simp] theorem State.setPc_halted (s : State) (v : Int) : (s.setPc v).halted = s.halted := rfl
@[simp] theorem State.setPc_rs (s : State) (v : Int) : (s.setPc v).rs = s.rs := rfl
@[simp] theorem State.setPc_busy (s : State) (v : Int) : (s.setPc v).busy = s.busy := rfl
@[simp] theorem State.setPc_cause (s : State) (v : Int) : (s.setPc v).cause = s.cause := rfl
@[simp] theorem State.setPc_info (s : State) (v : Int) : (s.setPc v).info = s.info := rfl
@[simp] theorem State.setPc_kind (s : State) (v : Int) : (s.setPc v).kind = s.kind := rfl
@[simp] theorem State.setPc_inq (s : State) (v : Int) : (s.setPc v).inq = s.inq := rfl
@[simp] theorem State.setPc_outq (s : State) (v : Int) : (s.setPc v).outq = s.outq := rfl
@[simp] theorem State.setPc_extended (s : State) (v : Int) : (s.setPc v).extended = s.extended := rfl
@[simp] theorem State.setPc_xlen (s : State) (v : Int) : (s.setPc v).xlen = s.xlen := rfl

@[simp] theorem State.advance_mem (s : State) (n : Nat) : (s.advance n).mem = s.mem := rfl
@[simp] theorem State.advance_pc (s : State) (n : Nat) : (s.advance n).pc = s.pc + n := rfl
@[simp] theorem State.advance_rb (s : State) (n : Nat) : (s.advance n).rb = s.rb := rfl
@[simp] theorem State.advance_halted (s : State) (n : Nat) : (s.advance n).halted = s.halted := rfl
@[simp] theorem State.advance_rs (s : State) (n : Nat) : (s.advance n).rs = s.rs := rfl
@[simp] theorem State.advance_busy (s : State) (n : Nat) : (s.advance n).busy = s.busy := rfl
@[simp] theorem State.advance_cause (s : State) (n : Nat) : (s.advance n).cause = s.cause := rfl
@[simp] theorem State.advance_info (s : State) (n : Nat) : (s.advance n).info = s.info := rfl
@[simp] theorem State.advance_kind (s : State) (n : Nat) : (s.advance n).kind = s.kind := rfl
@[simp] theorem State.advance_inq (s : State) (n : Nat) : (s.advance n).inq = s.inq := rfl
@[simp] theorem State.advance_outq (s : State) (n : Nat) : (s.advance n).outq = s.outq := rfl
@[simp] theorem State.advance_extended (s : State) (n : Nat) : (s.advance n).extended = s.extended := rfl
@[simp] theorem State.advance_xlen (s : State) (n : Nat) : (s.advance n).xlen = s.xlen := rfl

@[simp] theorem State.setBase_mem (s : State) (v : Int) : (s.setBase v).mem = s.mem := by
  unfold State.setBase; split <;> rfl
@[simp] theorem State.setBase_pc (s : State) (v : Int) : (s.setBase v).pc = s.pc := by
  unfold State.setBase; split <;> rfl
@[simp] theorem State.setBase_rb (s : State) (v : Int) : (s.setBase v).rb = if s.extended then v else s.rb := by
  unfold State.setBase; split <;> rfl
@[simp] theorem State.setBase_halted (s : State) (v : Int) : (s.setBase v).halted = s.halted := by
  unfold State.setBase; split <;> rfl
@[simp] theorem State.setBase_rs (s : State) (v : Int) : (s.setBase v).rs = s.rs := by
  unfold State.setBase; split <;> rfl
@[simp] theorem State.setBase_busy (s : State) (v : Int) : (s.setBase v).busy = s.busy := by
  unfold State.setBase; split <;> rfl
@[simp] theorem State.setBase_cause (s : State) (v : Int) : (s.setBase v).cause = s.cause := by
  unfold State.setBase; split <;> rfl
@[simp] theorem State.setBase_info (s : State) (v : Int) : (s.setBase v).info = s.info := by
  unfold State.setBase; split <;> rfl
@[simp] theorem State.setBase_kind (s : State) (v : Int) : (s.setBase v).kind = s.kind := by
  unfold State.setBase; split <;> rfl
@[simp] theorem State.setBase_inq (s : State) (v : Int) : (s.setBase v).inq = s.inq := by
  unfold State.setBase; split <;> rfl
@[simp] theorem State.setBase_outq (s : State) (v : Int) : (s.setBase v).outq = s.outq := by
  unfold State.setBase; split <;> rfl
@[simp] theorem State.setBase_extended (s : State) (v : Int) : (s.setBase v).extended = s.extended := by
  unfold State.setBase; split <;> rfl
@[simp] theorem State.setBase_xlen (s : State) (v : Int) : (s.setBase v).xlen = s.xlen := by
  unfold State.setBase; split <;> rfl

@[simp] theorem State.pushOut_mem (s : State) (v : Int) : (s.pushOut v).mem = s.mem := rfl
@[simp] theorem State.pushOut_pc (s : State) (v : Int) : (s.pushOut v).pc = s.pc := rfl
@[simp] theorem State.pushOut_rb (s : State) (v : Int) : (s.pushOut v).rb = s.rb := rfl
@[simp] theorem State.pushOut_halted (s : State) (v : Int) : (s.pushOut v).halted = s.halted := rfl
@[simp] theorem State.pushOut_rs (s : State) (v : Int) : (s.pushOut v).rs = s.rs := rfl
@[simp] theorem State.pushOut_busy (s : State) (v : Int) : (s.pushOut v).busy = s.busy := rfl
@[simp] theorem State.pushOut_cause (s : State) (v : Int) : (s.pushOut v).cause = s.cause := rfl
@[simp] theorem State.pushOut_info (s : State) (v : Int) : (s.pushOut v).info = s.info := rfl
@[simp] theorem State.pushOut_kind (s : State) (v : Int) : (s.pushOut v).kind = s.kind := rfl
@[simp] theorem State.pushOut_inq (s : State) (v : Int) : (s.pushOut v).inq = s.inq := rfl
@[simp] theorem State.pushOut_outq (s : State) (v : Int) : (s.pushOut v).outq = s.outq ++ [v] := rfl
@[simp] theorem State.pushOut_extended (s : State) (v : Int) : (s.pushOut v).extended = s.extended := rfl
@[simp] theorem State.pushOut_xlen (s : State) (v : Int) : (s.pushOut v).xlen = s.xlen := rfl

@[simp] theorem State.popIn_mem (s : State) : (s.popIn).mem = s.mem := rfl
@[simp] theorem State.popIn_pc (s : State) : (s.popIn).pc = s.pc := rfl
@[simp] theorem State.popIn_rb (s : State) : (s.popIn).rb = s.rb := rfl
@[simp] theorem State.popIn_halted (s : State) : (s.popIn).halted = s.halted := rfl
@[simp] theorem State.popIn_rs (s : State) : (s.popIn).rs = s.rs := rfl
@[simp] theorem State.popIn_busy (s : State) : (s.popIn).busy = s.busy := rfl
@[simp] theorem State.popIn_cause (s : State) : (s.popIn).cause = s.cause := rfl
@[simp] theorem State.popIn_info (s : State) : (s.popIn).info = s.info := rfl
@[simp] theorem State.popIn_kind (s : State) : (s.popIn).kind = s.kind := rfl
@[simp] theorem State.popIn_inq (s : State) : (s.popIn).inq = s.inq.tail := rfl
@[simp] theorem State.popIn_outq (s : State) : (s.popIn).outq = s.outq := rfl
@[simp] theorem State.popIn_extended (s : State) : (s.popIn).extended = s.extended := rfl
@[simp] theorem State.popIn_xlen (s : State) : (s.popIn).xlen = s.xlen := rfl

@[simp] theorem State.raise_mem (s : State) (f : FaultRecord) : (s.raise f).mem = s.mem := rfl
@[simp] theorem State.raise_pc (s : State) (f : FaultRecord) : (s.raise f).pc = s.pc := rfl
@[simp] theorem State.raise_rb (s : State) (f : FaultRecord) : (s.raise f).rb = s.rb := rfl
@[simp] theorem State.raise_halted (s : State) (f : FaultRecord) : (s.raise f).halted = s.halted := rfl
@[simp] theorem State.raise_rs (s : State) (f : FaultRecord) : (s.raise f).rs = .faulted := rfl
@[simp] theorem State.raise_busy (s : State) (f : FaultRecord) : (s.raise f).busy = false := rfl
@[simp] theorem State.raise_cause (s : State) (f : FaultRecord) : (s.raise f).cause = f.cause := rfl
@[simp] theorem State.raise_info (s : State) (f : FaultRecord) : (s.raise f).info = f.info := rfl
@[simp] theorem State.raise_kind (s : State) (f : FaultRecord) : (s.raise f).kind = f.kind := rfl
@[simp] theorem State.raise_inq (s : State) (f : FaultRecord) : (s.raise f).inq = s.inq := rfl
@[simp] theorem State.raise_outq (s : State) (f : FaultRecord) : (s.raise f).outq = s.outq := rfl
@[simp] theorem State.raise_extended (s : State) (f : FaultRecord) : (s.raise f).extended = s.extended := rfl
@[simp] theorem State.raise_xlen (s : State) (f : FaultRecord) : (s.raise f).xlen = s.xlen := rfl

@[simp] theorem State.suspend_mem (s : State) : (s.suspend).mem = s.mem := rfl
@[simp] theorem State.suspend_pc (s : State) : (s.suspend).pc = s.pc := rfl
@[simp] theorem State.suspend_rb (s : State) : (s.suspend).rb = s.rb := rfl
@[simp] theorem State.suspend_halted (s : State) : (s.suspend).halted = s.halted := rfl
@[simp] theorem State.suspend_rs (s : State) : (s.suspend).rs = .suspended := rfl
@[simp] theorem State.suspend_busy (s : State) : (s.suspend).busy = false := rfl
@[simp] theorem State.suspend_cause (s : State) : (s.suspend).cause = s.cause := rfl
@[simp] theorem State.suspend_info (s : State) : (s.suspend).info = s.info := rfl
@[simp] theorem State.suspend_kind (s : State) : (s.suspend).kind = s.kind := rfl
@[simp] theorem State.suspend_inq (s : State) : (s.suspend).inq = s.inq := rfl
@[simp] theorem State.suspend_outq (s : State) : (s.suspend).outq = s.outq := rfl
@[simp] theorem State.suspend_extended (s : State) : (s.suspend).extended = s.extended := rfl
@[simp] theorem State.suspend_xlen (s : State) : (s.suspend).xlen = s.xlen := rfl

@[simp] theorem State.halt_mem (s : State) : (s.halt).mem = s.mem := rfl
@[simp] theorem State.halt_pc (s : State) : (s.halt).pc = s.pc := rfl
@[simp] theorem State.halt_rb (s : State) : (s.halt).rb = s.rb := rfl
@[simp] theorem State.halt_halted (s : State) : (s.halt).halted = true := rfl
@[simp] theorem State.halt_rs (s : State) : (s.halt).rs = .halted := rfl
@[simp] theorem State.halt_busy (s : State) : (s.halt).busy = false := rfl
@[simp] theorem State.halt_cause (s : State) : (s.halt).cause = s.cause := rfl
@[simp] theorem State.halt_info (s : State) : (s.halt).info = s.info := rfl
@[simp] theorem State.halt_kind (s : State) : (s.halt).kind = s.kind := rfl
@[simp] theorem State.halt_inq (s : State) : (s.halt).inq = s.inq := rfl
@[simp] theorem State.halt_outq (s : State) : (s.halt).outq = s.outq := rfl
@[simp] theorem State.halt_extended (s : State) : (s.halt).extended = s.extended := rfl
@[simp] theorem State.halt_xlen (s : State) : (s.halt).xlen = s.xlen := rfl

@[simp] theorem State.startRun_mem (s : State) (input : List Int) : (s.startRun input).mem = s.mem := rfl
@[simp] theorem State.startRun_pc (s : State) (input : List Int) : (s.startRun input).pc = s.pc := rfl
@[simp] theorem State.startRun_rb (s : State) (input : List Int) : (s.startRun input).rb = s.rb := rfl
@[simp] theorem State.startRun_halted (s : State) (input : List Int) : (s.startRun input).halted = s.halted := rfl
@[simp] theorem State.startRun_rs (s : State) (input : List Int) : (s.startRun input).rs = .running := rfl
@[simp] theorem State.startRun_busy (s : State) (input : List Int) : (s.startRun input).busy = true := rfl
@[simp] theorem State.startRun_cause (s : State) (input : List Int) : (s.startRun input).cause = s.cause := rfl
@[simp] theorem State.startRun_info (s : State) (input : List Int) : (s.startRun input).info = s.info := rfl
@[simp] theorem State.startRun_kind (s : State) (input : List Int) : (s.startRun input).kind = s.kind := rfl
@[simp] theorem State.startRun_inq (s : State) (input : List Int) : (s.startRun input).inq = input := rfl
@[simp] theorem State.startRun_outq (s : State) (input : List Int) : (s.startRun input).outq = [] := rfl
@[simp] theorem State.startRun_extended (s : State) (input : List Int) : (s.startRun input).extended = s.extended := rfl
@[simp] theorem State.startRun_xlen (s : State) (input : List Int) : (s.startRun input).xlen = s.xlen := rfl

/-- Reading `rb` in the extended variant. -/
theorem State.base_of_extended (s : State) (h : s.extended = true) : s.base = s.rb := by
  simp [State.base, h]

/-- Reading `rb` in the base variant (R24). -/
theorem State.base_of_not_extended (s : State) (h : s.extended = false) : s.base = 0 := by
  simp [State.base, h]

end Sys2Proof.Machine
end

