-- ==== Sys2Proof/Laws/Operands.lean ====
section
/-! SUPPORT. What operand resolution can answer, and what the shared operations of the instructions can do. -/

namespace Sys2Proof.Machine

theorem State.memRead_of_inRange {s : State} {a : Int} (h : s.mem.InRange a) (k : AccessKind) :
    s.memRead a k = .ok (s.mem.cell a.toNat) := by
  simp only [State.memRead, if_pos h]

theorem State.memRead_of_not_inRange {s : State} {a : Int} (h : ¬ s.mem.InRange a) (k : AccessKind) :
    s.memRead a k = .error (.address a k) := by
  simp only [State.memRead, if_neg h]

theorem State.writeIndex_of_inRange {s : State} {a : Int} (h : s.mem.InRange a) : s.writeIndex a = .ok a.toNat := by
  simp only [State.writeIndex, if_pos h]

theorem State.writeIndex_of_not_inRange {s : State} {a : Int} (h : ¬ s.mem.InRange a) :
    s.writeIndex a = .error (.address a .write) := by
  simp only [State.writeIndex, if_neg h]

theorem State.writeIndex_eq_ok {s : State} {a : Int} {d : Nat} :
    s.writeIndex a = .ok d ↔ s.mem.InRange a ∧ d = a.toNat := by
  by_cases h : s.mem.InRange a
  · rw [State.writeIndex_of_inRange h]
    exact ⟨fun e => ⟨h, (Except.ok.inj e).symm⟩, fun e => by rw [e.2]⟩
  · rw [State.writeIndex_of_not_inRange h]
    exact ⟨fun e => (by cases e), fun e => absurd e.1 h⟩

@[simp] theorem State.rd_position (s : State) (v : Int) : s.rd ⟨.position, v⟩ = s.memRead v .read := rfl
@[simp] theorem State.rd_immediate (s : State) (v : Int) : s.rd ⟨.immediate, v⟩ = .ok v := rfl
@[simp] theorem State.rd_relative (s : State) (v : Int) :
    s.rd ⟨.relative, v⟩ = s.memRead (v + s.base) .read := rfl

@[simp] theorem State.wa_position (s : State) (w v : Int) : s.wa w ⟨.position, v⟩ = s.writeIndex v := rfl
@[simp] theorem State.wa_immediate (s : State) (w v : Int) :
    s.wa w ⟨.immediate, v⟩ = .error (.word .immediateWriteTarget w) := rfl
@[simp] theorem State.wa_relative (s : State) (w v : Int) :
    s.wa w ⟨.relative, v⟩ = s.writeIndex (v + s.base) := rfl

/-- A resolved write address lies in memory. -/
theorem State.wa_lt {s : State} {w : Int} {p : Param} {d : Nat} (h : s.wa w p = .ok d) : d < s.mem.len := by
  obtain ⟨m, v⟩ := p
  cases m with
  | position =>
    obtain ⟨hr, rfl⟩ := State.writeIndex_eq_ok.1 h
    omega
  | immediate => cases h
  | relative =>
    obtain ⟨hr, rfl⟩ := State.writeIndex_eq_ok.1 h
    omega

@[simp] theorem State.commit_ok (s t : State) : s.commit (.ok t) = .next t := rfl
@[simp] theorem State.commit_error (s : State) (f : FaultRecord) : s.commit (.error f) = .next (s.raise f) := rfl

/-- Everything `computeStore` can do: the entry of a fault of operand 1, of operand 2 or of the write target, or the
result in its cell. -/
theorem State.computeStore_cases (s : State) (w : Int) (f : Int → Int → Int) (a b c : Param) :
    (∃ e, s.rd a = .error e ∧ s.computeStore w f a b c = .next (s.raise e)) ∨
    (∃ x e, s.rd a = .ok x ∧ s.rd b = .error e ∧ s.computeStore w f a b c = .next (s.raise e)) ∨
    (∃ x y e, s.rd a = .ok x ∧ s.rd b = .ok y ∧ s.wa w c = .error e ∧
      s.computeStore w f a b c = .next (s.raise e)) ∨
    (∃ x y d, s.rd a = .ok x ∧ s.rd b = .ok y ∧ s.wa w c = .ok d ∧
      s.computeStore w f a b c = .next ((s.setCell d (f x y)).advance 4)) := by
  unfold State.computeStore
  cases ha : s.rd a with
  | error e => exact .inl ⟨e, rfl, rfl⟩
  | ok x =>
    cases hb : s.rd b with
    | error e => exact .inr (.inl ⟨x, e, rfl, rfl, rfl⟩)
    | ok y =>
      cases hc : s.wa w c with
      | error e => exact .inr (.inr (.inl ⟨x, y, e, rfl, rfl, rfl, rfl⟩))
      | ok d => exact .inr (.inr (.inr ⟨x, y, d, rfl, rfl, rfl, rfl⟩))

/-- Everything `jumpIf` can do: the entry of a fault of operand 1 or of operand 2, or a new `pc`. -/
theorem State.jumpIf_cases (s : State) (taken : Int → Bool) (a b : Param) :
    (∃ e, s.rd a = .error e ∧ s.jumpIf taken a b = .next (s.raise e)) ∨
    (∃ x e, s.rd a = .ok x ∧ s.rd b = .error e ∧ s.jumpIf taken a b = .next (s.raise e)) ∨
    (∃ x y, s.rd a = .ok x ∧ s.rd b = .ok y ∧
      s.jumpIf taken a b = .next (if taken x then s.setPc y else s.advance 3)) := by
  unfold State.jumpIf
  cases ha : s.rd a with
  | error e => exact .inl ⟨e, rfl, rfl⟩
  | ok x =>
    cases hb : s.rd b with
    | error e => exact .inr (.inl ⟨x, e, rfl, rfl, rfl⟩)
    | ok y => exact .inr (.inr ⟨x, y, rfl, rfl, rfl⟩)

/-- Everything In can do: suspend, the entry of a fault of the write target, or the head stored. -/
theorem execIn_cases (a : Param) (s : State) :
    (s.inq = [] ∧ execIn a s = .next s.suspend) ∨
    (∃ v rest e, s.inq = v :: rest ∧ s.wa (Instr.inp a).word a = .error e ∧ execIn a s = .next (s.raise e)) ∨
    (∃ v rest d, s.inq = v :: rest ∧ s.wa (Instr.inp a).word a = .ok d ∧
      execIn a s = .next ((s.setCell d v).popIn.advance 2)) := by
  unfold execIn
  cases hq : s.inq with
  | nil => exact .inl ⟨rfl, rfl⟩
  | cons v rest =>
    cases ha : s.wa (Instr.inp a).word a with
    | error e => exact .inr (.inl ⟨v, rest, e, rfl, rfl, rfl⟩)
    | ok d => exact .inr (.inr ⟨v, rest, d, rfl, rfl, rfl⟩)

/-- Everything Out can do: the entry of a fault of its operand, or the value appended. -/
theorem execOut_cases (a : Param) (s : State) :
    (∃ e, s.rd a = .error e ∧ execOut a s = .next (s.raise e)) ∨
    (∃ x, s.rd a = .ok x ∧ execOut a s = .next ((s.pushOut x).advance 2)) := by
  unfold execOut
  cases ha : s.rd a with
  | error e => exact .inl ⟨e, rfl, rfl⟩
  | ok x => exact .inr ⟨x, rfl, rfl⟩

/-- Everything ChangeBase can do: the entry of a fault of its operand, or the new `rb`. -/
theorem execChangeBase_cases (a : Param) (s : State) :
    (∃ e, s.rd a = .error e ∧ execChangeBase a s = .next (s.raise e)) ∨
    (∃ x, s.rd a = .ok x ∧ execChangeBase a s = .next ((s.setBase (aluAdd s.xlen s.base x)).advance 2)) := by
  unfold execChangeBase
  cases ha : s.rd a with
  | error e => exact .inl ⟨e, rfl, rfl⟩
  | ok x => exact .inr ⟨x, rfl, rfl⟩

end Sys2Proof.Machine
end

