-- ==== Sys2Proof/Laws/Values.lean ====
section
/-! SUPPORT. Which values are in `Int_X` (R34 (f)): the results of the ALU, and the cells of memory under its
operations. -/

namespace Sys2Proof.Machine

theorem halfRange_pos (xlen : Nat) : 0 < halfRange xlen := Nat.two_pow_pos _

theorem zero_inX (xlen : Nat) : InX xlen 0 := by
  have := halfRange_pos xlen
  omega

/-- The number of values of `Int_X` is twice the number of the non-negative ones. -/
theorem two_mul_halfRange {xlen : Nat} (h : 0 < xlen) : 2 ^ xlen = 2 * halfRange xlen := by
  obtain ⟨n, rfl⟩ : ∃ n, xlen = n + 1 := ⟨xlen - 1, by omega⟩
  simp only [halfRange, Nat.add_sub_cancel, pow_succ, mul_comm]

/-- `wrap_X` of anything is in `Int_X` (R11). -/
theorem wrapX_inX {xlen : Nat} (h : 0 < xlen) (v : Int) : InX xlen (wrapX xlen v) := by
  have hm := two_mul_halfRange h
  have hlo := Int.le_bmod (x := v) (m := 2 ^ xlen) (Nat.two_pow_pos _)
  have hhi := Int.bmod_lt (x := v) (m := 2 ^ xlen) (Nat.two_pow_pos _)
  rw [hm] at hlo hhi
  unfold wrapX
  rw [hm]
  omega

/-- `wrap_X` leaves a value of `Int_X` alone (R11). -/
theorem wrapX_of_inX {xlen : Nat} (h : 0 < xlen) {v : Int} (hv : InX xlen v) : wrapX xlen v = v := by
  have hm := two_mul_halfRange h
  unfold wrapX
  rw [hm]
  apply Int.bmod_eq_of_le <;> omega

/-- `wrap_X(v)` is congruent to `v` modulo `2^XLEN` (R11). -/
theorem wrapX_congr (xlen : Nat) (v : Int) : ∃ q : Int, v = wrapX xlen v + q * 2 ^ xlen := by
  refine ⟨v.bdiv (2 ^ xlen), ?_⟩
  have := Int.bmod_add_bdiv v (2 ^ xlen)
  unfold wrapX
  push_cast at this
  linarith

/-- Two values of `Int_X` that are congruent modulo `2^XLEN` are equal. -/
theorem inX_unique {xlen : Nat} (h : 0 < xlen) {r r' q : Int} (hr : InX xlen r) (hr' : InX xlen r')
    (hq : r = r' + q * 2 ^ xlen) : r = r' := by
  have hm : (2 : Int) ^ xlen = 2 * (halfRange xlen : Int) := by exact_mod_cast two_mul_halfRange h
  have hp := halfRange_pos xlen
  rw [hm] at hq
  obtain hz | hz | hz : q = 0 ∨ 1 ≤ q ∨ q ≤ -1 := by omega
  · simpa [hz] using hq
  · have := le_mul_of_one_le_left (a := q) (b := 2 * (halfRange xlen : Int)) (by omega) hz
    linarith [hr.2, hr'.1]
  · have := le_mul_of_one_le_left (a := -q) (b := 2 * (halfRange xlen : Int)) (by omega) (by omega)
    linarith [hr.1, hr'.2]

theorem aluLt_inX {xlen : Nat} (h : 2 ≤ xlen) (a b : Int) : InX xlen (aluLt a b) := by
  have : 2 ≤ halfRange xlen := Nat.pow_le_pow_right two_pos (show 1 ≤ xlen - 1 by omega)
  unfold aluLt
  split <;> omega

theorem aluEq_inX {xlen : Nat} (h : 2 ≤ xlen) (a b : Int) : InX xlen (aluEq a b) := by
  have : 2 ≤ halfRange xlen := Nat.pow_le_pow_right two_pos (show 1 ≤ xlen - 1 by omega)
  unfold aluEq
  split <;> omega

/-- What a write leaves listed was listed before or is what was written. -/
theorem insertCell_mem {a : Nat} {v : Int} {cells : List (Nat × Int)} {c : Nat × Int}
    (h : c ∈ insertCell a v cells) : c = (a, v) ∨ c ∈ cells := by
  induction cells with
  | nil =>
    unfold insertCell at h
    split at h <;> simp_all
  | cons d rest ih =>
    obtain ⟨b, u⟩ := d
    unfold insertCell at h
    split at h
    · split at h <;> simp_all
    · split at h
      · split at h
        · exact .inr (List.mem_cons_of_mem _ h)
        · exact (List.mem_cons.1 h).imp_right (List.mem_cons_of_mem _)
      · rcases List.mem_cons.1 h with rfl | h
        · exact .inr List.mem_cons_self
        · exact (ih h).imp_right (List.mem_cons_of_mem _)

/-- Writing a value of `Int_X` keeps every cell in `Int_X`. -/
theorem Memory.setCell_inX {xlen : Nat} {m : Memory} (hm : ∀ c ∈ m.cells, InX xlen c.2) (a : Nat) {v : Int}
    (hv : InX xlen v) : ∀ c ∈ (m.setCell a v).cells, InX xlen c.2 := by
  intro c hc
  rcases insertCell_mem hc with rfl | hc
  · exact hv
  · exact hm c hc

/-- A cell reads as a value of `Int_X`, listed or not. -/
theorem Memory.cell_inX {xlen : Nat} {m : Memory} (hm : ∀ c ∈ m.cells, InX xlen c.2) (a : Nat) :
    InX xlen (m.cell a) := by
  obtain ⟨len, cells⟩ := m
  induction cells with
  | nil => exact zero_inX xlen
  | cons c rest ih =>
    obtain ⟨b, u⟩ := c
    simp only [Memory.cell, lookupCell]
    split
    · exact hm (b, u) List.mem_cons_self
    · exact ih (fun c hc => hm c (List.mem_cons_of_mem _ hc))

/-- The cells of an image of values of `Int_X` are in `Int_X`. -/
theorem cellsOfImage_inX {xlen : Nat} {image : List Int} (h : AllInX xlen image) (a : Nat) :
    ∀ c ∈ cellsOfImage a image, InX xlen c.2 := by
  induction image generalizing a with
  | nil => simp [cellsOfImage]
  | cons v image ih =>
    have ih' := ih (fun u hu => h u (List.mem_cons_of_mem _ hu)) (a + 1)
    unfold cellsOfImage
    split
    · exact ih'
    · intro c hc
      rcases List.mem_cons.1 hc with rfl | hc
      · exact h v List.mem_cons_self
      · exact ih' c hc

/-- A read operand is a value of `Int_X` where the raw value and the cells are. -/
theorem State.rd_inX {s : State} {p : Param} {x : Int} (hm : ∀ c ∈ s.mem.cells, InX s.xlen c.2)
    (hp : InX s.xlen p.raw) (h : s.rd p = .ok x) : InX s.xlen x := by
  have read : ∀ a, s.memRead a .read = .ok x → InX s.xlen x := by
    intro a ha
    by_cases hr : s.mem.InRange a
    · rw [State.memRead_of_inRange hr] at ha
      exact Except.ok.inj ha ▸ Memory.cell_inX hm _
    · rw [State.memRead_of_not_inRange hr] at ha
      cases ha
  obtain ⟨m, v⟩ := p
  cases m with
  | position => exact read _ h
  | immediate => exact Except.ok.inj h ▸ hp
  | relative => exact read _ h

end Sys2Proof.Machine
end

