-- ==== Sys2Proof/Laws/Step.lean ====
section
/-! SUPPORT. What the fetch stages, an instruction and a step can do. -/

namespace Sys2Proof.Machine

/-- A fault record that a raised fault carries: a cause, and an access kind exactly for an AddressFault (R28, R132). -/
def FaultRecord.Sound (f : FaultRecord) : Prop := f.cause ≠ .noFault ∧ (f.kind ≠ .noKind ↔ f.cause = .addressFault)

theorem FaultRecord.address_sound (a : Int) {k : AccessKind} (hk : k ≠ .noKind) : (FaultRecord.address a k).Sound := by
  simpa [FaultRecord.Sound, FaultRecord.address] using hk

theorem State.memRead_error {s : State} {a : Int} {k : AccessKind} {f : FaultRecord} (h : s.memRead a k = .error f) :
    f = .address a k := by
  by_cases hr : s.mem.InRange a
  · rw [State.memRead_of_inRange hr] at h
    cases h
  · rw [State.memRead_of_not_inRange hr] at h
    exact (Except.error.inj h).symm

theorem State.writeIndex_error {s : State} {a : Int} {f : FaultRecord} (h : s.writeIndex a = .error f) :
    f = .address a .write := by
  by_cases hr : s.mem.InRange a
  · rw [State.writeIndex_of_inRange hr] at h
    cases h
  · rw [State.writeIndex_of_not_inRange hr] at h
    exact (Except.error.inj h).symm

theorem State.rd_error_sound {s : State} {p : Param} {f : FaultRecord} (h : s.rd p = .error f) : f.Sound := by
  obtain ⟨m, v⟩ := p
  cases m with
  | position => exact State.memRead_error h ▸ FaultRecord.address_sound _ (by decide)
  | immediate => cases h
  | relative => exact State.memRead_error h ▸ FaultRecord.address_sound _ (by decide)

theorem State.wa_error_sound {s : State} {w : Int} {p : Param} {f : FaultRecord} (h : s.wa w p = .error f) :
    f.Sound := by
  obtain ⟨m, v⟩ := p
  cases m with
  | position => exact State.writeIndex_error h ▸ FaultRecord.address_sound _ (by decide)
  | immediate =>
    cases h
    simp [FaultRecord.Sound, FaultRecord.word]
  | relative => exact State.writeIndex_error h ▸ FaultRecord.address_sound _ (by decide)

/-- The first stage fails: `pc` is outside memory. -/
theorem State.fetch_of_pc_out {s : State} (h : ¬ s.mem.InRange s.pc) :
    s.fetch = .error (.address s.pc .fetch) := by
  simp only [State.fetch, State.memRead_of_not_inRange h]
  rfl

/-- The second stage fails: the word at `pc` does not decode. -/
theorem State.fetch_of_head_fault {s : State} {f : DecodeFault} (hr : s.mem.InRange s.pc)
    (hd : decodeHead s.extended (s.mem.cell s.pc.toNat) = .error f) :
    s.fetch = .error (decodeFaultRecord (s.mem.cell s.pc.toNat) f) := by
  simp only [State.fetch, State.memRead_of_inRange hr, bind, Except.bind, hd]

/-- The word at `pc` decodes: what is left is the third stage, the parameter cells. -/
theorem State.fetch_of_head {s : State} {hd : Head} (hr : s.mem.InRange s.pc)
    (hh : decodeHead s.extended (s.mem.cell s.pc.toNat) = .ok hd) :
    s.fetch = (do
      let raws ← s.paramCells hd.op.arity (s.pc + 1)
      pure (hd.instr (raws.getD 0 0) (raws.getD 1 0) (raws.getD 2 0))) := by
  simp only [State.fetch, State.memRead_of_inRange hr, bind, Except.bind, hh]

theorem State.paramCells_error_sound {s : State} {n : Nat} {a : Int} {f : FaultRecord}
    (h : s.paramCells n a = .error f) : f.Sound := by
  induction n generalizing a with
  | zero => cases h
  | succ n ih =>
    cases h0 : s.memRead a .param with
    | error e =>
      simp only [State.paramCells, h0, bind, Except.bind] at h
      cases h
      exact State.memRead_error h0 ▸ FaultRecord.address_sound _ (by decide)
    | ok v =>
      cases h1 : s.paramCells n (a + 1) with
      | error e =>
        simp only [State.paramCells, h0, h1, bind, Except.bind] at h
        cases h
        exact ih h1
      | ok rest =>
        simp only [State.paramCells, h0, h1, bind, Except.bind] at h
        cases h

theorem State.fetch_error_sound {s : State} {f : FaultRecord} (h : s.fetch = .error f) : f.Sound := by
  by_cases hr : s.mem.InRange s.pc
  · cases hd : decodeHead s.extended (s.mem.cell s.pc.toNat) with
    | error e =>
      rw [State.fetch_of_head_fault hr hd] at h
      cases h
      cases e <;> simp [decodeFaultRecord, FaultRecord.Sound, FaultRecord.word]
    | ok hd' =>
      rw [State.fetch_of_head hr hd] at h
      cases hp : s.paramCells hd'.op.arity (s.pc + 1) with
      | error e =>
        rw [hp] at h
        cases h
        exact State.paramCells_error_sound hp
      | ok raws =>
        rw [hp] at h
        cases h
  · rw [State.fetch_of_pc_out hr] at h
    cases h
    exact FaultRecord.address_sound _ (by decide)

/-- The fetch stages read memory, `pc` and the variant, and nothing else. -/
theorem State.fetch_congr {s t : State} (hm : t.mem = s.mem) (hp : t.pc = s.pc) (he : t.extended = s.extended) :
    t.fetch = s.fetch := by
  have hc : ∀ (n : Nat) (a : Int), t.paramCells n a = s.paramCells n a := by
    intro n
    induction n with
    | zero => exact fun _ => rfl
    | succ n ih => exact fun a => by simp only [State.paramCells, State.memRead, hm, ih]
  simp only [State.fetch, State.memRead, hm, hp, he, hc]

/-- What the instructions with two read parameters and a write target compute (R80, R81, R95, R96). -/
def aluOf (xlen : Nat) : Opcode → Option (Int → Int → Int)
  | .add => some (aluAdd xlen)
  | .mul => some (aluMul xlen)
  | .lt => some aluLt
  | .eq => some aluEq
  | .inp | .out | .jnz | .jz | .changeBase | .halt => none

/-- Everything an instruction can do: the cases of a state before and of the next state, `i` being the instruction. -/
inductive ExecEnd (i : Instr) (s : State) : State → Prop where
  | faulted (f : FaultRecord) (h : f.Sound) : ExecEnd i s (s.raise f)
  | suspended (a : Param) (hi : i = .inp a) (hq : s.inq = []) : ExecEnd i s s.suspend
  | halted (hi : i = .halt) : ExecEnd i s s.halt
  | stored (a b c : Param) (f : Int → Int → Int) (x y : Int) (d : Nat) (hp : i.params = [a, b, c])
      (hf : aluOf s.xlen i.opcode = some f) (hc : i.writeParam = some c) (ha : s.rd a = .ok x) (hb : s.rd b = .ok y)
      (hd : s.wa i.word c = .ok d) : ExecEnd i s ((s.setCell d (f x y)).advance 4)
  | inputStored (a : Param) (d : Nat) (v : Int) (rest : List Int) (hi : i = .inp a) (hq : s.inq = v :: rest)
      (hd : s.wa i.word a = .ok d) : ExecEnd i s ((s.setCell d v).popIn.advance 2)
  | emitted (a : Param) (x : Int) (hi : i = .out a) (ha : s.rd a = .ok x) : ExecEnd i s ((s.pushOut x).advance 2)
  | jumped (a b : Param) (x y : Int) (hi : i = .jnz a b ∧ x ≠ 0 ∨ i = .jz a b ∧ x = 0) (ha : s.rd a = .ok x)
      (hb : s.rd b = .ok y) : ExecEnd i s (s.setPc y)
  | notTaken (a b : Param) (x y : Int) (hi : i = .jnz a b ∧ x = 0 ∨ i = .jz a b ∧ x ≠ 0) (ha : s.rd a = .ok x)
      (hb : s.rd b = .ok y) : ExecEnd i s (s.advance 3)
  | rebased (a : Param) (x : Int) (hi : i = .changeBase a) (ha : s.rd a = .ok x) :
      ExecEnd i s ((s.setBase (aluAdd s.xlen s.base x)).advance 2)

theorem State.computeStore_end {i : Instr} (s : State) (f : Int → Int → Int) (a b c : Param)
    (hp : i.params = [a, b, c]) (hf : aluOf s.xlen i.opcode = some f) (hw : i.writeParam = some c) :
    ∃ t, s.computeStore i.word f a b c = .next t ∧ ExecEnd i s t := by
  obtain ⟨e, ha, h⟩ | ⟨x, e, _, hb, h⟩ | ⟨x, y, e, _, _, hc, h⟩ | ⟨x, y, d, ha, hb, hc, h⟩ :=
    s.computeStore_cases i.word f a b c
  · exact ⟨_, h, .faulted e (State.rd_error_sound ha)⟩
  · exact ⟨_, h, .faulted e (State.rd_error_sound hb)⟩
  · exact ⟨_, h, .faulted e (State.wa_error_sound hc)⟩
  · exact ⟨_, h, .stored a b c f x y d hp hf hw ha hb hc⟩

theorem State.jumpIf_end {i : Instr} (s : State) (taken : Int → Bool) (a b : Param)
    (ht : ∀ x, taken x = true → i = .jnz a b ∧ x ≠ 0 ∨ i = .jz a b ∧ x = 0)
    (hn : ∀ x, taken x = false → i = .jnz a b ∧ x = 0 ∨ i = .jz a b ∧ x ≠ 0) :
    ∃ t, s.jumpIf taken a b = .next t ∧ ExecEnd i s t := by
  obtain ⟨e, ha, h⟩ | ⟨x, e, _, hb, h⟩ | ⟨x, y, ha, hb, h⟩ := s.jumpIf_cases taken a b
  · exact ⟨_, h, .faulted e (State.rd_error_sound ha)⟩
  · exact ⟨_, h, .faulted e (State.rd_error_sound hb)⟩
  · refine ⟨_, h, ?_⟩
    split
    · exact .jumped a b x y (ht x ‹_›) ha hb
    · exact .notTaken a b x y (hn x (by simpa using ‹¬ taken x = true›)) ha hb

/-- Every instruction, in every state, has a next state, which is one of the cases of `ExecEnd`. -/
theorem exec_end (i : Instr) (s : State) : ∃ t, exec i s = .next t ∧ ExecEnd i s t := by
  cases i with
  | add a b c => exact s.computeStore_end (i := .add a b c) _ a b c rfl rfl rfl
  | mul a b c => exact s.computeStore_end (i := .mul a b c) _ a b c rfl rfl rfl
  | lt a b c => exact s.computeStore_end (i := .lt a b c) _ a b c rfl rfl rfl
  | eq a b c => exact s.computeStore_end (i := .eq a b c) _ a b c rfl rfl rfl
  | jnz a b => exact s.jumpIf_end isNonZero a b (by simp [isNonZero]) (by simp [isNonZero])
  | jz a b => exact s.jumpIf_end isZero a b (by simp [isZero]) (by simp [isZero])
  | inp a =>
    obtain ⟨hq, h⟩ | ⟨v, rest, e, hq, hw, h⟩ | ⟨v, rest, d, hq, hw, h⟩ := execIn_cases a s
    · exact ⟨_, h, .suspended a rfl hq⟩
    · exact ⟨_, h, .faulted e (State.wa_error_sound hw)⟩
    · exact ⟨_, h, .inputStored a d v rest rfl hq hw⟩
  | out a =>
    obtain ⟨e, ha, h⟩ | ⟨x, ha, h⟩ := execOut_cases a s
    · exact ⟨_, h, .faulted e (State.rd_error_sound ha)⟩
    · exact ⟨_, h, .emitted a x rfl ha⟩
  | changeBase a =>
    obtain ⟨e, ha, h⟩ | ⟨x, ha, h⟩ := execChangeBase_cases a s
    · exact ⟨_, h, .faulted e (State.rd_error_sound ha)⟩
    · exact ⟨_, h, .rebased a x rfl ha⟩
  | halt => exact ⟨_, rfl, .halted rfl⟩

theorem step_idle {s : State} (h : s.busy = false) : step s = .next s := by
  simp [step, h]

theorem step_fetched {s : State} {i : Instr} (hb : s.busy = true) (hf : s.fetch = .ok i) : step s = exec i s := by
  simp [step, hb, hf]

theorem step_not_fetched {s : State} {f : FaultRecord} (hb : s.busy = true) (hf : s.fetch = .error f) :
    step s = .next (s.raise f) := by
  simp [step, hb, hf]

/-- The three cases of a step: no step of an idle core, a fault of the fetch stages, an instruction. Each has a next
state: a step neither faults nor refuses in the sense of the host's interface. -/
theorem step_cases (s : State) :
    (s.busy = false ∧ step s = .next s) ∨
    (∃ f, s.busy = true ∧ s.fetch = .error f ∧ f.Sound ∧ step s = .next (s.raise f)) ∨
    (∃ i t, s.busy = true ∧ s.fetch = .ok i ∧ step s = .next t ∧ ExecEnd i s t) := by
  cases hb : s.busy with
  | false => exact .inl ⟨rfl, step_idle hb⟩
  | true =>
    cases hf : s.fetch with
    | error f => exact .inr (.inl ⟨f, rfl, rfl, State.fetch_error_sound hf, step_not_fetched hb hf⟩)
    | ok i =>
      obtain ⟨t, ht, he⟩ := exec_end i s
      exact .inr (.inr ⟨i, t, rfl, rfl, by rw [step_fetched hb hf, ht], he⟩)

end Sys2Proof.Machine
end

