-- ==== Sys2Proof/Tests/Slice0.lean ====
section
/-! SUPPORT. Tests of the model against spec/95_test_vectors.md (the vector is named at each), the smoke test of
WellFormed, and a witness for the hypotheses of each statement of Obligations.lean. -/

namespace Sys2Proof.Tests

open Sys2Proof.Machine Sys2Proof.Claims

/-- A core of the extended variant inside a run, `mem` holding the cells given. -/
def running (cells : List Int) : State := { construct 64 true cells 0 with busy := true }

/-- The next state of a step, if there is one. -/
def after (s : State) : Option State :=
  match step s with
  | .next t => some t
  | .fault _ => none
  | .refused _ => none

/-- The fault record and `pc` after a step. -/
def record (s : State) : Option (Nat × Int × AccessKind × RunState × Int) :=
  (after s).map (fun t => (t.cause.code, t.info, t.kind, t.rs, t.pc))

abbrev maxWord : Int := 9223372036854775807
abbrev minWord : Int := -9223372036854775808

/-! ### WellFormed: an ill-formed term for each check -/

theorem test_wellFormed_accepts :
    (Instr.mul ⟨.position, 4⟩ ⟨.immediate, 3⟩ ⟨.relative, 4⟩).wellFormed 64 true = true := by decide
theorem test_wellFormed_refuses_changeBase_in_base_variant :
    (Instr.changeBase ⟨.immediate, 1⟩).wellFormed 64 false = false := by decide
theorem test_wellFormed_refuses_relative_in_base_variant :
    (Instr.out ⟨.relative, 1⟩).wellFormed 64 false = false := by decide
theorem test_wellFormed_refuses_immediate_write_target :
    (Instr.add ⟨.position, 0⟩ ⟨.position, 0⟩ ⟨.immediate, 0⟩).wellFormed 64 true = false ∧
      (Instr.inp ⟨.immediate, 3⟩).wellFormed 64 true = false := by decide

theorem test_wellFormed_refuses_raw_value_outside_range :
    (Instr.out ⟨.immediate, 2147483648⟩).wellFormed 32 true = false ∧
      (Instr.out ⟨.immediate, 2147483648⟩).wellFormed 64 true = true := by decide

/-! ### Decoding: a word of each row, by its digits (R60, R63, R77) -/

theorem test_decode_add : decode true [1001, 5, -7, 6] =
    .ok (.add ⟨.position, 5⟩ ⟨.immediate, -7⟩ ⟨.position, 6⟩, []) := by decide
theorem test_decode_mul : decode true [1002, 4, 3, 4, 33] =
    .ok (.mul ⟨.position, 4⟩ ⟨.immediate, 3⟩ ⟨.position, 4⟩, [33]) := by decide
theorem test_decode_in : decode true [203, 1] = .ok (.inp ⟨.relative, 1⟩, []) := by decide
theorem test_decode_out : decode true [104, -5] = .ok (.out ⟨.immediate, -5⟩, []) := by decide
theorem test_decode_jnz : decode true [1005, 12, 2] = .ok (.jnz ⟨.position, 12⟩ ⟨.immediate, 2⟩, []) := by decide
theorem test_decode_jz : decode true [2106, 0, -1] = .ok (.jz ⟨.immediate, 0⟩ ⟨.relative, -1⟩, []) := by decide
theorem test_decode_lt : decode true [22207, 0, 1, 2] =
    .ok (.lt ⟨.relative, 0⟩ ⟨.relative, 1⟩ ⟨.relative, 2⟩, []) := by decide
theorem test_decode_eq : decode true [10008, 0, 0, 5] =
    .ok (.eq ⟨.position, 0⟩ ⟨.position, 0⟩ ⟨.immediate, 5⟩, []) := by decide
theorem test_decode_changeBase : decode true [209, -1] = .ok (.changeBase ⟨.relative, -1⟩, []) := by decide
theorem test_decode_halt : decode true [99, 1] = .ok (.halt, [1]) := by decide

/-- D1, D9, D22, D28, D30, D32 and D39. -/
theorem test_decode_refuses :
    decodeHead true 0 = .error .invalidOpcode ∧ decodeHead true (-1101) = .error .invalidOpcode ∧
    decodeHead true maxWord = .error .reservedDigits ∧ decodeHead true 901 = .error .invalidMode ∧
    decodeHead true 10304 = .error .reservedDigits ∧ decodeHead true 100010 = .error .invalidOpcode ∧
    decodeHead false 204 = .error .invalidMode := by decide
theorem test_decode_missing_cell : decode true [1101, 1] = .error (.missingCell 2) := by decide
theorem test_decodeTableWord :
    decodeTableWord 64 2 = some (.mul ⟨.position, 0⟩ ⟨.position, 0⟩ ⟨.position, 0⟩) ∧ decodeTableWord 64 98 = none ∧
    decodeTableWord 128 (104 + 7 * 2 ^ 64) = some (.out ⟨.immediate, 7⟩) := by decide

/-! ### One step: vectors of Part 2 -/

/-- A7. -/
theorem test_add_relative : (after { running [201, -2, 6, 7, 99, 100, 23, 0] with rb := 7 }).map
    (fun t => (t.mem.cell 7, t.pc)) = some (123, 4) := by decide
/-- A8. -/
theorem test_add_wraps : (after (running [1101, maxWord, 1, 5, 99, 0])).map (fun t => t.mem.cell 5) = some minWord := by
  decide
/-- M8. -/
theorem test_mul_wraps : (after (running [1102, 3037000500, 3037000500, 5, 99, 0])).map (fun t => t.mem.cell 5) =
    some (-9223372036709301616) := by decide
/-- M16. -/
theorem test_mul_relative : (after { running [22202, 0, 1, 2, 99, 6, 7, 0] with rb := 5 }).map
    (fun t => (t.mem.cell 7, t.pc)) = some (42, 4) := by decide
/-- I2 and I16. -/
theorem test_in_takes_the_head :
    (after { running [3, 3, 99, 0] with inq := [5, 6] }).map (fun t => (t.mem.cell 3, t.inq, t.pc)) =
      some (5, [6], 2) ∧
    (after { running [3, 0, 99] with inq := [42] }).map (fun t => (t.mem.cell 0, t.pc)) = some (42, 2) := by decide
/-- I8 and I9. -/
theorem test_in_suspends_before_its_target_is_resolved :
    record { running [103, 3, 99, 0] with inq := [5] } = some (3, 103, .noKind, .faulted, 0) ∧
    record (running [103, 3, 99, 0]) = some (0, 0, .noKind, .suspended, 0) := by decide
/-- O4. -/
theorem test_out_appends : (after { running [4, 3, 99, 77] with outq := [1, 2] }).map (fun t => (t.outq, t.pc)) =
    some ([1, 2, 77], 2) := by decide
/-- O5. -/
theorem test_out_faults : (after { running [4, 3, 99] with outq := [1] }).map (fun t => (t.outq, t.kind, t.info)) =
    some ([1], .read, 3) := by decide
/-- J3 and J5. -/
theorem test_jnz_taken : (after (running [5, 5, 6, 99, 99, -1, 4])).map (·.pc) = some 4 ∧
    (after (running [1105, -1, -4, 99])).map (·.pc) = some (-4) := by decide
/-- J2 and J11. -/
theorem test_jnz_not_taken : (after (running [1105, 0, 7, 99])).map (·.pc) = some 3 ∧
    record (running [105, 0, 9, 99]) = some (2, 9, .read, .faulted, 0) := by decide
/-- Z8. -/
theorem test_jz_taken : (after { running [2106, 0, -1, 99, 8] with rb := 5 }).map (·.pc) = some 8 := by decide
/-- Z4. -/
theorem test_jz_not_taken : (after (running [1106, -1, 0, 99])).map (·.pc) = some 3 := by decide
/-- L6. -/
theorem test_lt_is_signed : (after (running [1107, maxWord, minWord, 5, 99, -1])).map (fun t => t.mem.cell 5) =
    some 0 := by decide
/-- L8. -/
theorem test_lt_relative : (after { running [22207, 0, 1, 2, 99, 4, 5, 9] with rb := 5 }).map
    (fun t => t.mem.cell 7) = some 1 := by decide
/-- E6. -/
theorem test_eq_sign_matters : (after (running [1108, -1, 1, 5, 99, -1])).map (fun t => t.mem.cell 5) = some 0 := by
  decide
/-- E7. -/
theorem test_eq_overwrites_its_word : (after (running [8, 0, 0, 0, 99])).map (fun t => (t.mem.cell 0, t.pc)) =
    some (1, 4) := by decide
/-- C4. -/
theorem test_changeBase_uses_the_old_base : (after { running [209, -1, 99, 10] with rb := 4 }).map
    (fun t => (t.rb, t.pc)) = some (14, 2) := by decide
/-- C5. -/
theorem test_changeBase_wraps : (after { running [109, 1, 99] with rb := maxWord }).map (·.rb) = some minWord := by
  decide
/-- H4. -/
theorem test_halt : (after { running [4, 0, 99] with pc := 2 }).map (fun t => (t.halted, t.rs, t.busy, t.pc)) =
    some (true, .halted, false, 2) := by decide

/-- A26, A22, A15, A24. -/
theorem test_address_faults :
    record { running [201, maxWord, 0, 0, 99] with rb := 1 } =
      some (2, 9223372036854775808, .read, .faulted, 0) ∧
    record (running [1101, 1, 1, 5, 99]) = some (2, 5, .write, .faulted, 0) ∧
    record (running [11101, 1, 2, 5, 99, 0]) = some (3, 11101, .noKind, .faulted, 0) ∧
    record (running [1, 0, 0]) = some (2, 3, .param, .faulted, 0) := ⟨by decide, by decide, by decide, by decide⟩
/-- D34, D35, D36, D38. -/
theorem test_fetch_faults :
    record { running [3, 0, 0, 0] with pc := -1 } = some (2, -1, .fetch, .faulted, -1) ∧
    record (running [301, 0, 0]) = some (4, 301, .noKind, .faulted, 0) ∧
    record (running [100001]) = some (5, 100001, .noKind, .faulted, 0) ∧
    record { running [109, 0, 0, 0] with extended := false } = some (1, 109, .noKind, .faulted, 0) :=
  ⟨by decide, by decide, by decide, by decide⟩

/-- R7 and R82 with `XLEN = 32`: the sum and the product wrap at 32 bits, and 2^31 is no value of an image there. -/
theorem test_width_32 :
    (after { construct 32 true [1101, 2147483647, 1, 5, 99, 0] 0 with busy := true }).map (fun t => t.mem.cell 5) =
      some (-2147483648) ∧
    (after { construct 32 true [1102, 65536, 65536, 5, 99, 7] 0 with busy := true }).map (fun t => t.mem.cell 5) =
      some 0 := by decide
theorem test_width_32_premise :
    (Event.hostReset [2147483648] 0).apply (construct 32 true [] 0) = .refused .hostValueOutOfRange := rfl

/-! ### Reset and the host -/

/-- S8: the first start suspends with nothing collected, the second resumes and halts. -/
theorem test_suspend_and_resume :
    ((execute 1 [] (construct 64 true [3, 0, 4, 0, 99] 0)).bind (fun r => execute 3 [42] r.2)).map
      (fun r => (r.1, r.2.mem.cell 0, r.2.pc, r.2.rs)) = some ([42], 42, 4, .halted) := by decide
/-- R111 and R117: reset alone runs nothing. -/
theorem test_reset_is_idle : after State.reset = some State.reset := by decide
theorem test_withFetchWord_runs_first :
    (after (State.reset.withFetchWord 64 99)).map (·.halted) = some true ∧
    (after (State.reset.withFetchWord 64 1)).map (fun t => (t.mem.cell 0, t.pc)) = some (2, 4) := by decide
theorem test_memory_canonical : (running [1, 0, 3]).mem.cells = [(0, 1), (2, 3)] ∧
    ((running [1, 0, 3]).mem.setCell 2 0).cells = [(0, 1)] ∧ (running [1, 0, 3]).mem.wf = true := by decide

/-! ### Witnesses: a state and operands that meet the hypotheses of each statement, clause by clause -/

theorem witness_legal_instruction : (Instr.add ⟨.immediate, 1⟩ ⟨.relative, -1⟩ ⟨.immediate, 0⟩).legal true = true ∧
    (Instr.halt).legal false = true := by decide
theorem witness_cells_that_decode : decode false [4, -1, 7] = .ok (.out ⟨.position, -1⟩, [7]) := by decide
theorem witness_invalidOpcode :
    (running [-1]).busy = true ∧ (running [-1]).mem.InRange (running [-1]).pc ∧
    (running [-1]).mem.cell 0 = -1 ∧ (-1 : Int) < 0 ∧
    (running [0]).mem.cell 0 = 0 ∧ (∀ op : Opcode, op.legal true = true → (0 : Int) % 100 ≠ op.code) :=
  ⟨by decide, by decide, by decide, by decide, by decide, fun op _ => by cases op <;> decide⟩
theorem witness_reservedDigits :
    (running [1104]).busy = true ∧ (running [1104]).mem.InRange 0 ∧ (running [1104]).mem.cell 0 = 1104 ∧
    (0 : Int) ≤ (1104 : Int) ∧ Opcode.legal true .out = true ∧ (1104 : Int) % 100 = Opcode.code .out ∧
    Opcode.arity .out < 2 ∧ (1104 : Int) / 10 ^ (2 + 1) % 10 ≠ 0 ∧ (100001 : Int) / 100000 ≠ 0 := by
  decide
theorem witness_invalidMode :
    (running [90001]).busy = true ∧ (running [90001]).mem.InRange 0 ∧ (running [90001]).mem.cell 0 = 90001 ∧
    (0 : Int) ≤ (90001 : Int) ∧ (90001 : Int) % 100 = Opcode.code .add ∧
    (90001 : Int) / 100000 = 0 ∧ (∀ j : Nat, Opcode.arity .add < j → j ≤ 3 → (90001 : Int) / 10 ^ (j + 1) % 10 = 0) ∧
    3 ≤ Opcode.arity .add ∧
    (∀ m : Mode, m.legal true = true → (90001 : Int) / 10 ^ (3 + 1) % 10 ≠ m.digit) :=
  ⟨by decide, by decide, by decide, by decide, by decide, by decide,
    fun j h1 h2 => absurd h1 (by simp only [Opcode.arity]; omega), by decide, fun m _ => by cases m <;> decide⟩
theorem witness_fetchOutside : (running [3, 0]).busy = true ∧
    ¬ ({ running [3, 0] with pc := 2 } : State).mem.InRange (2 : Int) := by decide
theorem witness_missingCell :
    (running [1105, 1]).busy = true ∧ (running [1105, 1]).mem.InRange (running [1105, 1]).pc ∧
    (running [1105, 1]).mem.cell 0 = (Instr.jnz ⟨.immediate, 1⟩ ⟨.immediate, 0⟩).word ∧
    (Instr.jnz ⟨.immediate, 1⟩ ⟨.immediate, 0⟩).legal true = true ∧
    (∀ j : Nat, 1 ≤ j → j < 2 → (running [1105, 1]).mem.InRange ((running [1105, 1]).pc + j)) ∧
    ¬ (running [1105, 1]).mem.InRange ((running [1105, 1]).pc + (2 : Nat)) := by
  refine ⟨by decide, by decide, by decide, by decide, ?_, by decide⟩
  intro j h1 h2
  obtain rfl : j = 1 := by omega
  decide
theorem witness_parameterCells :
    (running [104, -9]).mem.cell 0 = (Instr.out ⟨.immediate, -9⟩).word ∧
    ∀ (k : Nat) (p : Param), (Instr.out ⟨.immediate, -9⟩).params[k]? = some p →
      (running [104, -9]).mem.InRange ((running [104, -9]).pc + k + 1) ∧
      (running [104, -9]).mem.cell ((running [104, -9]).pc + k + 1).toNat = p.raw := by
  refine ⟨by decide, ?_⟩
  intro k p h
  cases k with
  | zero =>
    cases h
    decide
  | succ k => cases h
theorem witness_cellsFrom :
    decode true (cellsFrom (running [104, -9]) 4 0) = .ok (.out ⟨.immediate, -9⟩, []) ∧
    decode true (cellsFrom (running [104]) 4 0) = .error (.missingCell 1) ∧
    decode true (cellsFrom (running []) 4 0) = .error (.missingCell 0) ∧
    decode true (cellsFrom (running [0]) 4 0) = .error (.fault .invalidOpcode) := by decide

/-- The state of the operand witnesses: five cells, `rb = 1`. -/
def operandState : State := { running [1, 4, 0, 2, 50] with rb := 1, inq := [7] }

theorem witness_readsAs : ReadsAs operandState ⟨.position, 4⟩ 50 ∧ ReadsAs operandState ⟨.immediate, -3⟩ (-3) ∧
    ReadsAs operandState ⟨.relative, -1⟩ 1 := by
  simp only [ReadsAs]
  decide
theorem witness_readFaults : ReadFaults operandState ⟨.position, 5⟩ 5 ∧
    ReadFaults operandState ⟨.relative, -2⟩ (-1) := by
  simp only [ReadFaults]
  decide
theorem witness_writesTo : operandState.mem.wf = true ∧ WritesTo operandState ⟨.position, 4⟩ 4 ∧
    WritesTo operandState ⟨.relative, -1⟩ 0 := by
  simp only [WritesTo]
  decide
theorem witness_writeFaults : WriteFaults operandState ⟨.position, -1⟩ (-1) ∧
    WriteFaults operandState ⟨.relative, 4⟩ 5 ∧ operandState.inq = 7 :: [] := by
  simp only [WriteFaults]
  decide
/-- Clause by clause, the instructions of `ComputesAndStores` and `JumpsWhen` and In: the hypotheses of a fault of
operand 2, of an Immediate target, of a bad target and of completion hold together. -/
theorem witness_operand_clauses :
    (ReadsAs operandState ⟨.immediate, 1⟩ 1 ∧ ReadFaults operandState ⟨.position, 5⟩ 5) ∧
    (ReadsAs operandState ⟨.immediate, 1⟩ 1 ∧ ReadsAs operandState ⟨.position, 4⟩ 50 ∧
      (⟨.immediate, 0⟩ : Param).mode = .immediate) ∧
    (ReadsAs operandState ⟨.immediate, 1⟩ 1 ∧ ReadsAs operandState ⟨.position, 4⟩ 50 ∧
      WriteFaults operandState ⟨.relative, 4⟩ 5) ∧
    (ReadsAs operandState ⟨.immediate, 0⟩ 0 ∧ ReadsAs operandState ⟨.relative, -1⟩ 1 ∧
      WritesTo operandState ⟨.position, 0⟩ 0) := by
  simp only [ReadsAs, ReadFaults, WriteFaults, WritesTo]
  decide
theorem witness_changeBase : operandState.extended = true ∧ ReadsAs operandState ⟨.position, 4⟩ 50 := by
  simp only [ReadsAs]
  decide
theorem witness_halt_word : (running [99]).busy = true ∧ (running [99]).mem.InRange 0 ∧
    (running [99]).mem.cell 0 = 99 := by decide
theorem witness_modeParity : ReadsAs operandState ⟨.immediate, 50⟩ 50 ∧ ReadsAs operandState ⟨.position, 4⟩ 50 ∧
    ReadsAs operandState ⟨.relative, 3⟩ 50 ∧ Instr.add ∈ [Instr.add, Instr.mul, Instr.lt, Instr.eq] ∧
    (⟨.position, 0⟩ : Param).mode ≠ .immediate := by
  refine ⟨?_, ?_, ?_, List.mem_cons_self, by decide⟩ <;> simp only [ReadsAs] <;> decide
theorem witness_frame_no_store : (Instr.out ⟨.position, 4⟩).writeParam = none ∧
    (after (running [4, 1])).isSome = true ∧ exec (.out ⟨.position, 4⟩) operandState =
      .next ((operandState.pushOut 50).advance 2) := ⟨by decide, by decide, rfl⟩
theorem witness_frame_store : (Instr.inp ⟨.position, 4⟩).writeParam = some ⟨.position, 4⟩ ∧
    exec (.inp ⟨.position, 4⟩) operandState = .next ((operandState.setCell 4 7).popIn.advance 2) ∧
    WritesTo operandState ⟨.position, 4⟩ 4 ∧ (∀ d, ¬ WritesTo operandState ⟨.immediate, 4⟩ d) := by
  refine ⟨by decide, rfl, ?_, fun d h => by simp only [WritesTo] at h⟩
  simp only [WritesTo]
  decide
theorem witness_busy_step : (running [99]).busy = true ∧ (running [99]).rs = .running ∧
    step (running [99]) = .next (running [99]).halt := ⟨rfl, rfl, rfl⟩
theorem witness_faulted_step : (running [0]).rs = .running ∧ (after (running [0])).map (·.rs) = some .faulted := by
  decide
theorem witness_base_written : (after { running [109, 5] with rb := 2 }).map (fun t => decide (t.rb ≠ 2)) = some true := by
  decide
theorem witness_base_variant : ({ running [109, 5] with extended := false } : State).extended = false := by decide
theorem witness_halted_written : (after (running [99])).map (fun t => decide (t.halted ≠ false)) = some true := by
  decide
theorem witness_memory_written : (after (running [1, 0, 0, 0])).map
    (fun t => decide (t.mem ≠ (running [1, 0, 0, 0]).mem)) = some true := by decide
theorem witness_canonical : (⟨3, [(1, 5)]⟩ : Memory).wf = true ∧
    ((⟨3, []⟩ : Memory).setCell 1 5).wf = true := by decide
theorem witness_pc_advance : (running [104, 3]).mem.len + 4 ≤ halfRange 64 ∧ (running [104, 3]).busy = true ∧
    (running [104, 3]).fetch = .ok (.out ⟨.immediate, 3⟩) ∧ Opcode.out ≠ .jnz ∧ Opcode.out ≠ .jz ∧
    Opcode.out ≠ .halt ∧ (after (running [104, 3])).map (·.busy) = some true := by decide
/-- Jumps that are not taken. -/
theorem witness_pc_advance_jump : (running [1105, 0, 7]).fetch = .ok (.jnz ⟨.immediate, 0⟩ ⟨.immediate, 7⟩) ∧
    ReadsAs (running [1105, 0, 7]) ⟨.immediate, 0⟩ 0 ∧
    (running [1106, 4, 7]).fetch = .ok (.jz ⟨.immediate, 4⟩ ⟨.immediate, 7⟩) ∧
    ReadsAs (running [1106, 4, 7]) ⟨.immediate, 4⟩ 4 ∧ (4 : Int) ≠ 0 := by
  simp only [ReadsAs]
  decide
theorem witness_bad_jump : (running [1105, 1, 7]).busy = true ∧ ReadsAs (running [1105, 1, 7]) ⟨.immediate, 1⟩ 1 ∧
    ReadsAs (running [1105, 1, 7]) ⟨.immediate, 7⟩ 7 ∧ ¬ (running [1105, 1, 7]).mem.InRange (7 : Int) ∧
    ReadsAs (running [1106, 0, 7]) ⟨.immediate, 0⟩ 0 := by
  simp only [ReadsAs]
  decide
/-- A14. -/
theorem witness_store_next :
    (running [1101, 90, 9, 4, 0]).fetch = .ok (.add ⟨.immediate, 90⟩ ⟨.immediate, 9⟩ ⟨.position, 4⟩) ∧
    WritesTo (running [1101, 90, 9, 4, 0]) ⟨.position, 4⟩ 4 ∧
    ((4 : Nat) : Int) = (running [1101, 90, 9, 4, 0]).pc + 4 + (0 : Nat) := by
  simp only [WritesTo]
  decide
theorem witness_store_inv : (running [1101, 90, 9, 4, 0]).Inv where
  halted_iff := by decide
  busy_running := by decide
  suspended_at_in := fun h => absurd h (by decide)
  faulted_iff := by decide
  no_fault_record := by decide
  kind_iff := by decide
  mem_wf := by decide
  mem_bound := by decide
  base_variant := by decide
  cells_inX := by decide
  pc_inX := by decide
  rb_inX := by decide
  inq_inX := by decide
  outq_inX := by decide
/-- What each storing instruction stores, and the parameter cell of a following instruction as the cell stored to. -/
theorem witness_stores :
    Stores (running [1101, 90, 9, 4, 0]) (.add ⟨.immediate, 90⟩ ⟨.immediate, 9⟩ ⟨.position, 4⟩) 99 ∧
    Stores operandState (.mul ⟨.position, 4⟩ ⟨.immediate, -3⟩ ⟨.position, 0⟩) (-150) ∧
    Stores operandState (.lt ⟨.immediate, -3⟩ ⟨.position, 4⟩ ⟨.position, 0⟩) 1 ∧
    Stores operandState (.eq ⟨.immediate, -3⟩ ⟨.position, 4⟩ ⟨.position, 0⟩) 0 ∧
    Stores operandState (.inp ⟨.position, 0⟩) 7 := by
  refine ⟨⟨90, 9, rfl, rfl, by decide, 0, by decide⟩, ⟨50, -3, by simp only [ReadsAs]; decide, rfl, by decide, 0, by decide⟩,
    ⟨-3, 50, rfl, by simp only [ReadsAs]; decide, by decide, by decide⟩,
    ⟨-3, 50, rfl, by simp only [ReadsAs]; decide, by decide, by decide⟩, ⟨[], rfl⟩⟩
theorem witness_store_to_parameter_cell :
    (running [1101, 1, 2, 5, 104, 0]).fetch = .ok (.add ⟨.immediate, 1⟩ ⟨.immediate, 2⟩ ⟨.position, 5⟩) ∧
    WritesTo (running [1101, 1, 2, 5, 104, 0]) ⟨.position, 5⟩ 5 ∧
    (after (running [1101, 1, 2, 5, 104, 0])).map (fun t => cellsFrom t 4 t.pc) = some [104, 3] := by
  simp only [WritesTo]
  decide
theorem witness_reset_premises : MemLenLegal 64 [99] 3 ∧ AllInX 64 [99] ∧ ¬ MemLenLegal 64 [99] Config.resetPad ∧
    ¬ AllInX 64 [2 ^ 63] := by decide

/-- A core in RUNNING inside a run meets the invariants. -/
theorem witness_inv_busy : (running [3, 0]).Inv where
  halted_iff := by decide
  busy_running := by decide
  suspended_at_in := fun h => absurd h (by decide)
  faulted_iff := by decide
  no_fault_record := by decide
  kind_iff := by decide
  mem_wf := by decide
  mem_bound := by decide
  base_variant := by decide
  cells_inX := by decide
  pc_inX := by decide
  rb_inX := by decide
  inq_inX := by decide
  outq_inX := by decide

/-- A suspended core meets the invariants. -/
theorem witness_inv_suspended : (running [3, 0]).suspend.Inv where
  halted_iff := by decide
  busy_running := by decide
  suspended_at_in := fun _ => ⟨rfl, ⟨.position, 0⟩, by decide⟩
  faulted_iff := by decide
  no_fault_record := by decide
  kind_iff := by decide
  mem_wf := by decide
  mem_bound := by decide
  base_variant := by decide
  cells_inX := by decide
  pc_inX := by decide
  rb_inX := by decide
  inq_inX := by decide
  outq_inX := by decide

/-- A halted core meets the invariants. -/
theorem witness_inv_halted : (running [99]).halt.Inv where
  halted_iff := by decide
  busy_running := by decide
  suspended_at_in := fun h => absurd h (by decide)
  faulted_iff := by decide
  no_fault_record := by decide
  kind_iff := by decide
  mem_wf := by decide
  mem_bound := by decide
  base_variant := by decide
  cells_inX := by decide
  pc_inX := by decide
  rb_inX := by decide
  inq_inX := by decide
  outq_inX := by decide

/-- A faulted core meets the invariants. -/
theorem witness_inv_faulted : ((running [0]).raise (.word .invalidOpcode 0)).Inv where
  halted_iff := by decide
  busy_running := by decide
  suspended_at_in := fun h => absurd h (by decide)
  faulted_iff := by decide
  no_fault_record := by decide
  kind_iff := by decide
  mem_wf := by decide
  mem_bound := by decide
  base_variant := by decide
  cells_inX := by decide
  pc_inX := by decide
  rb_inX := by decide
  inq_inX := by decide
  outq_inX := by decide

theorem witness_suspended_state : (running [3, 0]).suspend.rs = .suspended ∧
    (running [3, 0]).suspend.startPermitted = true ∧ (running [3, 0]).suspend.busy = false := by decide
theorem witness_permanent : (running [99]).halt.rs = .halted ∧ (running [99]).halt.halted = true ∧
    (∀ e ∈ [Event.coreStep, Event.hostStart [1]], ¬ IsReset e) := by
  refine ⟨rfl, rfl, ?_⟩
  intro e he
  simp only [List.mem_cons, List.not_mem_nil, or_false] at he
  obtain rfl | rfl := he <;> exact id
theorem witness_events : applyEvents [.coreStep, .hostStart [8]] (running [3, 0]) =
    .next ((running [3, 0]).suspend.startRun [8]) := rfl
theorem witness_start_clauses :
    ((running [3, 0]).suspend.busy = false ∧ (running [3, 0]).suspend.rs = .suspended) ∧
    ((construct 64 true [3, 0] 0).busy = false ∧ (construct 64 true [3, 0] 0).rs = .running) ∧
    (running [3, 0]).busy = true ∧ (running [99]).halt.rs = .halted := by decide
theorem witness_run_ends : runToEnd 1 (running [3, 0]) = some (running [3, 0]).suspend ∧
    (running [3, 0]).suspend.rs = .suspended := by decide
theorem witness_execute : (construct 64 true [104, 5, 99] 0).startPermitted = true ∧
    (execute 2 [] (construct 64 true [104, 5, 99] 0)).map (fun r => (r.1, r.2.rs)) = some ([5], .halted) ∧
    (execute 2 [] (construct 64 true [104, 5] 0)).map (fun r => r.2.rs) = some .faulted := by decide
/-- R125: two cores that pass their input on plus nothing, the last one halted; a faulted core ends the round (log entry
26). -/
theorem test_ring :
    ringRun 3 1 [(construct 64 true [3, 0, 4, 0, 99] 0, []), (construct 64 true [3, 0, 4, 0, 99] 0, [])] [5] = some [5] ∧
    (ringRound 3 [(construct 64 true [104, 5, 0] 0, [])] []).isNone = true := by decide
theorem witness_cores : (0 : Nat) ≠ 1 ∧
    (coresApply 0 .coreStep [running [99], running [99]]).map (·.halted) = [true, false] := by decide

end Sys2Proof.Tests
end

section
/-! PROOFS. The relative base `rb` (R24): who writes it, what a start leaves of it, and what ChangeBase makes of it. -/

namespace Sys2Proof.Machine

open Sys2Proof.Claims

/-- Every end of an instruction keeps `rb`, but for a completed ChangeBase of the extended variant. -/
theorem ExecEnd.rb_kept_or_rebased {i : Instr} {s t : State} (h : ExecEnd i s t) :
    t.rb = s.rb ∨ (s.extended = true ∧ ∃ a, i = .changeBase a) := by
  cases h with
  | rebased a x hi _ =>
    cases he : s.extended with
    | true => exact .inr ⟨rfl, a, hi⟩
    | false => exact .inl (by simp [he])
  | _ => exact .inl rfl

/-- A step keeps `rb`, but at a ChangeBase of a busy core of the extended variant. -/
theorem step_rb_kept_or_rebased {s t : State} (h : step s = .next t) :
    t.rb = s.rb ∨ (s.busy = true ∧ s.extended = true ∧ ∃ a, s.fetch = .ok (.changeBase a)) := by
  obtain ⟨_, hs⟩ | ⟨f, _, _, _, hs⟩ | ⟨i, u, hb, hf, hs, hend⟩ := step_cases s
  all_goals cases hs.symm.trans h
  · exact .inl rfl
  · exact .inl rfl
  · obtain hk | ⟨he, a, rfl⟩ := hend.rb_kept_or_rebased
    · exact .inl hk
    · exact .inr ⟨hb, he, a, hf⟩

/-- A start, permitted or ignored, leaves `rb`: it survives suspension and resumption (R24). -/
@[simp] theorem State.start_rb (s : State) (input : List Int) : (s.start input).rb = s.rb := by
  unfold State.start
  split <;> rfl

/-- The adder's result is `wrap_X` of the exact sum (R11, R82). -/
theorem aluAdd_isWrapOf {s : State} (h : 0 < s.xlen) (x y : Int) : IsWrapOf s (aluAdd s.xlen x y) (x + y) :=
  ⟨wrapX_inX h _, wrapX_congr _ _⟩

/-- ChangeBase completes whenever its operand resolves (R100). -/
theorem exec_changeBase_of_rd {s : State} {a : Param} {x : Int} (h : s.rd a = .ok x) :
    exec (.changeBase a) s = .next ((s.setBase (aluAdd s.xlen s.base x)).advance 2) := by
  obtain ⟨e, he, _⟩ | ⟨y, hy, hx⟩ := execChangeBase_cases a s
  · cases he.symm.trans h
  · cases hy.symm.trans h
    exact hx

/-- A completed ChangeBase of the extended variant leaves in `rb` the wrapped sum of the old `rb` and its operand
(R100). -/
theorem rb_of_rebased {s : State} (hx : 0 < s.xlen) (he : s.extended = true) (x : Int) :
    IsWrapOf s ((s.setBase (aluAdd s.xlen s.base x)).advance 2).rb (s.rb + x) := by
  simpa [he, s.base_of_extended he] using aluAdd_isWrapOf hx s.rb x

/-- Read resolution of a Relative parameter adds `rb`, as it is read, to the raw value (R68). -/
theorem State.rd_of_relative (s : State) {p : Param} (h : p.mode = .relative) :
    s.rd p = s.memRead (p.raw + s.base) .read := by
  obtain ⟨m, v⟩ := p
  cases h
  exact s.rd_relative v

/-- Write resolution of a Relative parameter adds `rb`, as it is read, to the raw value (R69). -/
theorem State.wa_of_relative (s : State) (w : Int) {p : Param} (h : p.mode = .relative) :
    s.wa w p = s.writeIndex (p.raw + s.base) := by
  obtain ⟨m, v⟩ := p
  cases h
  exact s.wa_relative w v

/-- Settles O30: that only ChangeBase writes `rb` is read off the ends of a step; the other clauses are the equations of
start, of reading `rb`, of Relative resolution and of ChangeBase. -/
theorem baseIsWrittenOnlyByChangeBase : Obligations.BaseIsWrittenOnlyByChangeBase := by
  unfold Obligations.BaseIsWrittenOnlyByChangeBase
  refine ⟨?written, State.start_rb, ?constructed, ?readOut, ?relative, ?changeBase⟩
  case written => exact fun s t h hne => (step_rb_kept_or_rebased h).resolve_left hne
  case constructed => exact fun _ _ _ _ => rfl
  case readOut => exact fun s => ⟨s.base_of_extended, s.base_of_not_extended⟩
  case relative => exact fun s p hp => ⟨s.rd_of_relative hp, fun w => s.wa_of_relative w hp⟩
  case changeBase =>
    exact fun s x hx he => ⟨_, exec_changeBase_of_rd (s.rd_immediate x), rb_of_rebased hx he x⟩

end Sys2Proof.Machine
end

section
/-! PROOFS. Operand resolution (R68, R69): what the resolution functions of the model answer, as equivalences with the
spec's own operand rules. -/

namespace Sys2Proof.Machine

open Sys2Proof.Claims

/-- A read answers the content of an address in memory, and nothing else (R45). -/
theorem State.memRead_eq_ok {s : State} {a v : Int} {k : AccessKind} :
    s.memRead a k = .ok v ↔ s.mem.InRange a ∧ s.mem.cell a.toNat = v := by
  by_cases h : s.mem.InRange a
  · simp [State.memRead_of_inRange h, and_iff_right h]
  · simp [State.memRead_of_not_inRange h, h]

/-- A read faults exactly at an address outside memory (R45). -/
theorem State.memRead_eq_error {s : State} {a : Int} {k : AccessKind} {f : FaultRecord} :
    s.memRead a k = .error f ↔ ¬ s.mem.InRange a ∧ f = .address a k := by
  by_cases h : s.mem.InRange a
  · simp [State.memRead_of_inRange h, h]
  · simp [State.memRead_of_not_inRange h, h, eq_comm]

/-- The range check of a write faults exactly at an address outside memory (R46). -/
theorem State.writeIndex_eq_error {s : State} {a : Int} {f : FaultRecord} :
    s.writeIndex a = .error f ↔ ¬ s.mem.InRange a ∧ f = .address a .write := by
  by_cases h : s.mem.InRange a
  · simp [State.writeIndex_of_inRange h, h]
  · simp [State.writeIndex_of_not_inRange h, h, eq_comm]

theorem State.rd_eq_ok {s : State} {p : Param} {v : Int} : s.rd p = .ok v ↔ ReadsAs s p v := by
  obtain ⟨m, r⟩ := p
  cases m with
  | position => exact State.memRead_eq_ok
  | immediate => exact (Except.ok.injEq _ _).to_iff
  | relative => exact State.memRead_eq_ok

theorem State.rd_eq_error {s : State} {p : Param} {f : FaultRecord} :
    s.rd p = .error f ↔ ∃ a, ReadFaults s p a ∧ f = .address a .read := by
  obtain ⟨m, r⟩ := p
  cases m with
  | position => simp [ReadFaults, State.memRead_eq_error, and_assoc]
  | immediate => simp [ReadFaults]
  | relative => simp [ReadFaults, State.memRead_eq_error, and_assoc]

theorem State.wa_eq_ok {s : State} {w : Int} {p : Param} {d : Nat} : s.wa w p = .ok d ↔ WritesTo s p d := by
  obtain ⟨m, r⟩ := p
  cases m with
  | position => exact State.writeIndex_eq_ok
  | immediate => simp [WritesTo]
  | relative => exact State.writeIndex_eq_ok

theorem State.wa_eq_error {s : State} {w : Int} {p : Param} {f : FaultRecord} :
    s.wa w p = .error f ↔ (p.mode = .immediate ∧ f = .word .immediateWriteTarget w) ∨
      ∃ a, WriteFaults s p a ∧ f = .address a .write := by
  obtain ⟨m, r⟩ := p
  cases m with
  | position => simp [WriteFaults, State.writeIndex_eq_error, and_assoc]
  | immediate => simp [WriteFaults, eq_comm]
  | relative => simp [WriteFaults, State.writeIndex_eq_error, and_assoc]

/-- Settles O11: each mode reads its own operand, so both equivalences are those of a memory read. -/
theorem readResolution : Obligations.ReadResolution := by
  unfold Obligations.ReadResolution
  exact fun _ _ => ⟨fun _ => State.rd_eq_ok, fun _ => State.rd_eq_error⟩

/-- Settles O12: each mode but Immediate names an address, so both equivalences are those of the range check. -/
theorem writeResolution : Obligations.WriteResolution := by
  unfold Obligations.WriteResolution
  exact fun _ _ _ => ⟨fun _ => State.wa_eq_ok, fun _ => State.wa_eq_error⟩

end Sys2Proof.Machine
end

section
/-! PROOFS. The parameter cells of an instruction (R62, R67): the decoder gives an instruction's own word its head back,
and the third stage of fetch reads the raw values in ascending order up to the first cell outside memory. -/

namespace Sys2Proof

/-- A legal instruction's word decodes to its opcode and modes. -/
theorem Instr.decodeHead_word {extended : Bool} {i : Instr} (h : i.legal extended = true) :
    decodeHead extended i.word = .ok i.head :=
  match i with
  | .add a b c => Laws.WordDecodes.add a b c extended h
  | .mul a b c => Laws.WordDecodes.mul a b c extended h
  | .inp a => Laws.WordDecodes.inp a extended h
  | .out a => Laws.WordDecodes.out a extended h
  | .jnz a b => Laws.WordDecodes.jnz a b extended h
  | .jz a b => Laws.WordDecodes.jz a b extended h
  | .lt a b c => Laws.WordDecodes.lt a b c extended h
  | .eq a b c => Laws.WordDecodes.eq a b c extended h
  | .changeBase a => Laws.WordDecodes.changeBase a extended h
  | .halt => Laws.WordDecodes.halt extended h

/-- The raw values of an instruction, parameter 1 first: its cells after the instruction word (R62). -/
def Instr.raws (i : Instr) : List Int := i.params.map (·.raw)

@[simp] theorem Instr.raws_length (i : Instr) : i.raws.length = i.params.length := List.length_map _

/-- An instruction has as many parameters as its opcode says (R63). -/
theorem Instr.arity_head (i : Instr) : i.head.op.arity = i.params.length := by
  cases i <;> rfl

/-- The head of an instruction and its raw values make the instruction. -/
theorem Instr.head_instr_raws (i : Instr) :
    i.head.instr (i.raws.getD 0 0) (i.raws.getD 1 0) (i.raws.getD 2 0) = i := by
  cases i <;> rfl

end Sys2Proof

namespace Sys2Proof.Machine

open Sys2Proof.Claims

/-- The cell `j` after the one at `a + 1` is the cell `j + 1` after the one at `a`. -/
theorem add_one_add_natCast (a : Int) (j : Nat) : a + 1 + j = a + (j + 1 : Nat) := by
  omega

/-- Parameter fetch answers the values that the cells from `a` on hold, if all of them are in memory. -/
theorem State.paramCells_of_cells {s : State} {raws : List Int} {a : Int}
    (h : ∀ (k : Nat) (r : Int), raws[k]? = some r → s.mem.InRange (a + k) ∧ s.mem.cell (a + k).toNat = r) :
    s.paramCells raws.length a = .ok raws := by
  induction raws generalizing a with
  | nil => rfl
  | cons r rest ih =>
    have hread : s.memRead a .param = .ok r := State.memRead_eq_ok.2 (by simpa using h 0 r rfl)
    have hrest : s.paramCells rest.length (a + 1) = .ok rest :=
      ih fun k r' hk => by simpa only [add_one_add_natCast] using h (k + 1) r' hk
    simp only [List.length_cons, State.paramCells, hread, hrest]
    rfl

/-- Parameter fetch faults at the first cell outside memory, which it reaches through the cells before it. -/
theorem State.paramCells_of_first_missing {s : State} {n k : Nat} {a : Int} (hk : k < n)
    (hbefore : ∀ j : Nat, j < k → s.mem.InRange (a + j)) (hmissing : ¬ s.mem.InRange (a + k)) :
    s.paramCells n a = .error (.address (a + k) .param) := by
  induction k generalizing n a with
  | zero =>
    obtain _ | n := n
    · omega
    have hread : s.memRead a .param = .error (.address a .param) :=
      State.memRead_of_not_inRange (by simpa using hmissing) _
    simp only [State.paramCells, hread, Nat.cast_zero, add_zero]
    rfl
  | succ k ih =>
    obtain _ | n := n
    · omega
    have hread := State.memRead_of_inRange (by simpa using hbefore 0 k.succ_pos) .param
    have hrest : s.paramCells n (a + 1) = .error (.address (a + 1 + k) .param) :=
      ih (by omega) (fun j hj => by simpa only [add_one_add_natCast] using hbefore (j + 1) (by omega))
        (by simpa only [add_one_add_natCast] using hmissing)
    simp only [State.paramCells, hread, hrest, add_one_add_natCast]
    rfl

/-- With the word of a legal instruction at `pc`, what is left of fetch is the reading of its parameter cells. -/
theorem State.fetch_of_word {s : State} {i : Instr} (hr : s.mem.InRange s.pc)
    (hw : s.mem.cell s.pc.toNat = i.word) (hl : i.legal s.extended = true) :
    s.fetch = (do
      let raws ← s.paramCells i.params.length (s.pc + 1)
      pure (i.head.instr (raws.getD 0 0) (raws.getD 1 0) (raws.getD 2 0))) := by
  rw [State.fetch_of_head hr (hw ▸ Instr.decodeHead_word hl), i.arity_head]

/-- The instruction whose word and raw values the cells from `pc` on hold is the one fetched. -/
theorem State.fetch_of_instr_cells {s : State} {i : Instr} (hr : s.mem.InRange s.pc)
    (hw : s.mem.cell s.pc.toNat = i.word) (hl : i.legal s.extended = true)
    (hraws : s.paramCells i.params.length (s.pc + 1) = .ok i.raws) : s.fetch = .ok i := by
  rw [State.fetch_of_word hr hw hl, hraws]
  exact congrArg Except.ok i.head_instr_raws

/-- The first parameter cell outside memory faults, for every instruction (R67). -/
theorem missingCellsFault (i : Instr) : MissingCellsFault i := by
  intro s k hb hr hw hl h1 hk hbefore hmissing
  obtain ⟨k, rfl⟩ : ∃ m, k = m + 1 := ⟨k - 1, by omega⟩
  rw [← add_one_add_natCast] at hmissing ⊢
  have hparams : s.paramCells i.params.length (s.pc + 1) = .error (.address (s.pc + 1 + k) .param) :=
    State.paramCells_of_first_missing (by omega)
      (fun j hj => add_one_add_natCast s.pc j ▸ hbefore (j + 1) (by omega) (by omega)) hmissing
  have hfetch : s.fetch = .error (.address (s.pc + 1 + k) .param) := by
    rw [State.fetch_of_word hr hw hl, hparams]
    rfl
  exact step_not_fetched hb hfetch

/-- Settles O9: parameter fetch ends at the first missing cell, and with none missing it yields the raw values that make
the instruction with its decoded head. -/
theorem parameterCellsAreFetchedInOrder : Obligations.ParameterCellsAreFetchedInOrder := by
  unfold Obligations.ParameterCellsAreFetchedInOrder
  refine fun i => ⟨missingCellsFault i, fun s hb hr hw hl hcells => ?_⟩
  have hraws : s.paramCells i.params.length (s.pc + 1) = .ok i.raws := by
    rw [← i.raws_length]
    refine State.paramCells_of_cells fun k r hk => ?_
    obtain ⟨p, hp, rfl⟩ := Option.map_eq_some_iff.1 (List.getElem?_map.symm.trans hk)
    rw [add_right_comm]
    exact hcells k p hp
  exact step_fetched hb (State.fetch_of_instr_cells hr hw hl hraws)

end Sys2Proof.Machine
end

section
/-! PROOFS. Add and Mul (40_arithmetic.md). Every instruction that reads two parameters and stores what it computes from
them is one shape, `State.computeStore`; what that shape does is said once, and an instruction supplies its word and what
its result means. -/

namespace Sys2Proof

/-- The word of an instruction with three parameters (R77). -/
theorem Instr.word_of_three {i : Instr} {a b c : Param} (hp : i.params = [a, b, c]) :
    i.word = 10000 * c.mode.digit + 1000 * b.mode.digit + 100 * a.mode.digit + i.opcode.code := by
  simp [Instr.word, Instr.head, Head.number, hp]

end Sys2Proof

namespace Sys2Proof.Machine

open Sys2Proof.Claims

section
variable {s : State} {w : Int} {f : Int → Int → Int} {a b c : Param} {x y : Int} {e : FaultRecord} {d : Nat}

theorem State.computeStore_of_rd_first_error (ha : s.rd a = .error e) :
    s.computeStore w f a b c = .next (s.raise e) := by
  simp only [State.computeStore, ha]
  rfl

theorem State.computeStore_of_rd_second_error (ha : s.rd a = .ok x) (hb : s.rd b = .error e) :
    s.computeStore w f a b c = .next (s.raise e) := by
  simp only [State.computeStore, ha, hb]
  rfl

theorem State.computeStore_of_wa_error (ha : s.rd a = .ok x) (hb : s.rd b = .ok y) (hc : s.wa w c = .error e) :
    s.computeStore w f a b c = .next (s.raise e) := by
  simp only [State.computeStore, ha, hb, hc]
  rfl

theorem State.computeStore_of_ok (ha : s.rd a = .ok x) (hb : s.rd b = .ok y) (hc : s.wa w c = .ok d) :
    s.computeStore w f a b c = .next ((s.setCell d (f x y)).advance 4) := by
  simp only [State.computeStore, ha, hb, hc]
  rfl

end

/-- A write and the advance of `pc` after it change one cell of memory. -/
theorem oneCellStored_setCell_advance {s : State} (hw : s.mem.wf = true) (d : Nat) (v : Int) (n : Nat) :
    OneCellStored s ((s.setCell d v).advance n) d v :=
  ⟨rfl, Memory.cell_setCell_same hw d v, fun _ hne => Memory.cell_setCell_other s.mem hne v⟩

/-- A write and the advance of `pc` after it leave the run state, the fault record and the parameters alone. -/
theorem controlKept_setCell_advance (s : State) (d : Nat) (v : Int) (n : Nat) :
    ControlKept s ((s.setCell d v).advance n) :=
  ⟨rfl, rfl, rfl, rfl, rfl, rfl, rfl, rfl⟩

/-- An instruction whose meaning is `computeStore` has the faults and the frame of `ComputesAndStores`; its result is
whatever its function computes. -/
theorem computesAndStores_of_exec {i : Instr} {a b c : Param} {f : State → Int → Int → Int}
    {result : State → Int → Int → Int → Prop} (hp : i.params = [a, b, c])
    (hexec : ∀ s, exec i s = s.computeStore i.word (f s) a b c)
    (hresult : ∀ (s : State) (x y : Int), 0 < s.xlen → result s x y (f s x y)) :
    ComputesAndStores i i.opcode.code a b c result := by
  refine ⟨Instr.word_of_three hp, missingCellsFault i, fun s => ?_⟩
  rw [hexec s]
  refine ⟨?first, ?second, ?immediate, ?target, ?stored⟩
  case first =>
    exact fun e ha => State.computeStore_of_rd_first_error (State.rd_eq_error.2 ⟨e, ha, rfl⟩)
  case second =>
    exact fun x e ha hb =>
      State.computeStore_of_rd_second_error (State.rd_eq_ok.2 ha) (State.rd_eq_error.2 ⟨e, hb, rfl⟩)
  case immediate =>
    exact fun x y ha hb hc =>
      State.computeStore_of_wa_error (State.rd_eq_ok.2 ha) (State.rd_eq_ok.2 hb)
        (State.wa_eq_error.2 (.inl ⟨hc, rfl⟩))
  case target =>
    exact fun x y e ha hb hc =>
      State.computeStore_of_wa_error (State.rd_eq_ok.2 ha) (State.rd_eq_ok.2 hb)
        (State.wa_eq_error.2 (.inr ⟨e, hc, rfl⟩))
  case stored =>
    exact fun x y d hx hw ha hb hc =>
      ⟨_, f s x y, State.computeStore_of_ok (State.rd_eq_ok.2 ha) (State.rd_eq_ok.2 hb) (State.wa_eq_ok.2 hc),
        hresult s x y hx, oneCellStored_setCell_advance hw d _ 4, rfl, rfl, rfl, rfl,
        controlKept_setCell_advance s d _ 4⟩

/-- The multiplier's result is `wrap_X` of the exact product (R11, R82). -/
theorem aluMul_isWrapOf {s : State} (h : 0 < s.xlen) (x y : Int) : IsWrapOf s (aluMul s.xlen x y) (x * y) :=
  ⟨wrapX_inX h _, wrapX_congr _ _⟩

/-- Settles O13: Add is `computeStore` with the adder, whose result is the wrapped sum. -/
theorem addStoresTheWrappedSum : Obligations.AddStoresTheWrappedSum := by
  unfold Obligations.AddStoresTheWrappedSum
  exact fun a b c => computesAndStores_of_exec (i := .add a b c) (f := fun s => aluAdd s.xlen) rfl (fun _ => rfl)
    fun _ x y h => aluAdd_isWrapOf h x y

/-- Settles O14: Mul is `computeStore` with the multiplier, whose result is the wrapped product. -/
theorem mulStoresTheWrappedProduct : Obligations.MulStoresTheWrappedProduct := by
  unfold Obligations.MulStoresTheWrappedProduct
  exact fun a b c => computesAndStores_of_exec (i := .mul a b c) (f := fun s => aluMul s.xlen) rfl (fun _ => rfl)
    fun _ x y h => aluMul_isWrapOf h x y

end Sys2Proof.Machine
end

section
/-! PROOFS. Out (41_io.md): it reads its one parameter and appends the value to the output queue. -/

namespace Sys2Proof

/-- The word of an instruction with one parameter (R77). -/
theorem Instr.word_of_one {i : Instr} {a : Param} (hp : i.params = [a]) :
    i.word = 100 * a.mode.digit + i.opcode.code := by
  simp [Instr.word, Instr.head, Head.number, Mode.digit, hp]

end Sys2Proof

namespace Sys2Proof.Machine

open Sys2Proof.Claims

/-- Out faults whenever its operand does, with nothing appended (R86, R112). -/
theorem exec_out_of_rd_error {s : State} {a : Param} {f : FaultRecord} (h : s.rd a = .error f) :
    exec (.out a) s = .next (s.raise f) := by
  obtain ⟨e, he, hx⟩ | ⟨x, hx, _⟩ := execOut_cases a s
  · cases he.symm.trans h
    exact hx
  · cases hx.symm.trans h

/-- Out completes whenever its operand resolves: it never blocks (R86). -/
theorem exec_out_of_rd {s : State} {a : Param} {x : Int} (h : s.rd a = .ok x) :
    exec (.out a) s = .next ((s.pushOut x).advance 2) := by
  obtain ⟨e, he, _⟩ | ⟨y, hy, hx⟩ := execOut_cases a s
  · cases he.symm.trans h
  · cases hy.symm.trans h
    exact hx

/-- Settles O18: a source that cannot be read is the fault entry of the state before; one that can be read is appended,
and of the state only the output queue and `pc` are written. -/
theorem outAppendsItsOperand : Obligations.OutAppendsItsOperand := by
  unfold Obligations.OutAppendsItsOperand
  refine fun a => ⟨Instr.word_of_one rfl, missingCellsFault (.out a), fun s => ⟨?fault, ?emitted⟩⟩
  case fault =>
    exact fun e ha => exec_out_of_rd_error (State.rd_eq_error.2 ⟨e, ha, rfl⟩)
  case emitted =>
    intro x ha
    have hmem : MemoryKept s ((s.pushOut x).advance 2) := ⟨rfl, fun _ => rfl⟩
    have hcontrol : ControlKept s ((s.pushOut x).advance 2) := ⟨rfl, rfl, rfl, rfl, rfl, rfl, rfl, rfl⟩
    exact ⟨_, exec_out_of_rd (State.rd_eq_ok.2 ha), rfl, rfl, hmem, rfl, rfl, hcontrol⟩

end Sys2Proof.Machine
end

section
/-! PROOFS. Lt and Eq (43_compare.md): two more instructions of the shape `State.computeStore`; what is said here of each
is the two results of its comparator. -/

namespace Sys2Proof.Machine

open Sys2Proof.Claims

@[simp] theorem aluLt_of_lt {x y : Int} (h : x < y) : aluLt x y = 1 := if_pos h

@[simp] theorem aluLt_of_not_lt {x y : Int} (h : ¬ x < y) : aluLt x y = 0 := if_neg h

@[simp] theorem aluEq_self (x : Int) : aluEq x x = 1 := if_pos rfl

@[simp] theorem aluEq_of_ne {x y : Int} (h : x ≠ y) : aluEq x y = 0 := if_neg h

/-- Settles O15: Lt is `computeStore` with the signed comparator, whose result is 1 or 0. -/
theorem ltStoresTheSignedComparison : Obligations.LtStoresTheSignedComparison := by
  unfold Obligations.LtStoresTheSignedComparison
  exact fun a b c => computesAndStores_of_exec (i := .lt a b c) (f := fun _ => aluLt) rfl (fun _ => rfl)
    fun _ _ _ _ => ⟨aluLt_of_lt, aluLt_of_not_lt⟩

/-- Settles O16: Eq is `computeStore` with the equality test, whose result is 1 or 0. -/
theorem eqStoresTheEquality : Obligations.EqStoresTheEquality := by
  unfold Obligations.EqStoresTheEquality
  exact fun a b c => computesAndStores_of_exec (i := .eq a b c) (f := fun _ => aluEq) rfl (fun _ => rfl)
    fun _ x _ _ => ⟨fun h => h ▸ aluEq_self x, aluEq_of_ne⟩

end Sys2Proof.Machine
end

section
/-! PROOFS. ChangeBase (44_base_and_halt.md): it writes `rb` and `pc` alone, and the base variant has no row for its
opcode. -/

namespace Sys2Proof

/-- The code of an opcode that a variant does not have selects no row of its table (R6, R71). -/
theorem Opcode.ofCode_code_of_not_legal {extended : Bool} {op : Opcode} (h : op.legal extended = false) :
    Opcode.ofCode extended op.code = none := by
  cases op with
  | changeBase =>
    cases h
    rfl
  | _ => cases h

/-- The word of an opcode that the variant does not have is an invalid opcode, whatever its mode digits (R66, R71). -/
theorem decodeHead_number_of_not_legal {extended : Bool} {h : Head} (ho : h.op.legal extended = false) :
    decodeHead extended h.number = .error .invalidOpcode := by
  obtain ⟨hcode, _⟩ := h.number_digits
  unfold decodeHead
  rw [if_neg (Int.not_lt.2 (Int.natCast_nonneg _)), Int.toNat_natCast, hcode, Opcode.ofCode_code_of_not_legal ho]

end Sys2Proof

namespace Sys2Proof.Machine

open Sys2Proof.Claims

/-- ChangeBase faults whenever its operand does (R100). -/
theorem exec_changeBase_of_rd_error {s : State} {a : Param} {f : FaultRecord} (h : s.rd a = .error f) :
    exec (.changeBase a) s = .next (s.raise f) := by
  obtain ⟨e, he, hx⟩ | ⟨x, hx, _⟩ := execChangeBase_cases a s
  · cases he.symm.trans h
    exact hx
  · cases hx.symm.trans h

/-- A write of `rb` and the advance of `pc` after it leave memory alone. -/
theorem memoryKept_setBase_advance (s : State) (v : Int) (n : Nat) : MemoryKept s ((s.setBase v).advance n) := by
  simp [MemoryKept]

/-- A write of `rb` and the advance of `pc` after it leave the run state, the fault record and the parameters alone. -/
theorem controlKept_setBase_advance (s : State) (v : Int) (n : Nat) : ControlKept s ((s.setBase v).advance n) := by
  simp [ControlKept]

/-- Settles O21: a source that cannot be read is the fault entry of the state before; one that can be read is added to
the old `rb`, and of the state only `rb` and `pc` are written. -/
theorem changeBaseAddsToTheBase : Obligations.ChangeBaseAddsToTheBase := by
  unfold Obligations.ChangeBaseAddsToTheBase
  refine fun a => ⟨Instr.word_of_one rfl, missingCellsFault (.changeBase a),
    decodeHead_number_of_not_legal (h := (Instr.changeBase a).head) rfl, fun s => ⟨?fault, ?rebased⟩⟩
  case fault =>
    exact fun e ha => exec_changeBase_of_rd_error (State.rd_eq_error.2 ⟨e, ha, rfl⟩)
  case rebased =>
    intro x hx he ha
    exact ⟨_, exec_changeBase_of_rd (State.rd_eq_ok.2 ha), rb_of_rebased hx he x, by simp,
      memoryKept_setBase_advance s _ 2, by simp, by simp, controlKept_setBase_advance s _ 2⟩

end Sys2Proof.Machine
end

section
/-! PROOFS. The words that decode to no opcode (R66, R131): negative ones, and those whose last two digits are the code of
no opcode of the variant. Decode refuses both before it looks at another digit. -/

namespace Sys2Proof

/-- A number that is the code of no legal opcode selects no row of the table (R71). -/
theorem Opcode.ofCode_eq_none_of_no_code {extended : Bool} {n : Nat}
    (h : ∀ op : Opcode, op.legal extended = true → op.code ≠ n) : Opcode.ofCode extended n = none := by
  cases hc : Opcode.ofCode extended n with
  | none => rfl
  | some op =>
    obtain ⟨hlegal, hcode⟩ := Opcode.ofCode_eq_some hc
    exact absurd hcode (h op hlegal)

/-- A negative word is an invalid opcode (R71). -/
theorem decodeHead_of_neg (extended : Bool) {w : Int} (h : w < 0) :
    decodeHead extended w = .error .invalidOpcode :=
  if_pos h

/-- A word that is not negative and selects no row of the table is an invalid opcode, whatever its other digits (R71). -/
theorem decodeHead_of_no_row {extended : Bool} {w : Int} (hw : ¬ w < 0)
    (h : Opcode.ofCode extended (w.toNat % 100) = none) : decodeHead extended w = .error .invalidOpcode := by
  unfold decodeHead
  rw [if_neg hw, h]

/-- Decode answers an invalid opcode for every word that R131 names. -/
theorem decodeHead_invalidOpcode {extended : Bool} {w : Int}
    (h : w < 0 ∨ ∀ op : Opcode, op.legal extended = true → w % 100 ≠ op.code) :
    decodeHead extended w = .error .invalidOpcode := by
  by_cases hw : w < 0
  · exact decodeHead_of_neg extended hw
  · have hcodes := h.resolve_left hw
    refine decodeHead_of_no_row hw (Opcode.ofCode_eq_none_of_no_code fun op hl hcode => hcodes op hl ?_)
    omega

end Sys2Proof

namespace Sys2Proof.Machine

open Sys2Proof.Claims

/-- A word at `pc` that does not decode ends the step in the fault entry with the record of its decode fault. -/
theorem step_of_head_fault {s : State} {f : DecodeFault} (hb : s.busy = true) (hr : s.mem.InRange s.pc)
    (hd : decodeHead s.extended (s.mem.cell s.pc.toNat) = .error f) :
    step s = .next (s.raise (decodeFaultRecord (s.mem.cell s.pc.toNat) f)) :=
  step_not_fetched hb (State.fetch_of_head_fault hr hd)

/-- Settles O5: decode refuses each of these words as an invalid opcode, and the step is then the fault entry with the
record of that refusal. -/
theorem invalidOpcodeIsRaised : Obligations.InvalidOpcodeIsRaised := by
  unfold Obligations.InvalidOpcodeIsRaised
  refine ⟨rfl, ?raised⟩
  case raised =>
    rintro s w hb hr rfl hw
    exact step_of_head_fault hb hr (decodeHead_invalidOpcode hw)

end Sys2Proof.Machine
end

section
/-! PROOFS. The decoder and the encoder are inverse (R60, R62, R66, R67, R77): the words that decode are the numbers of
the heads, and a list of cells decodes to the instruction whose word and raw values stand at its front. -/

namespace Sys2Proof

/-- No opcode has more than three parameters (R63). -/
theorem Opcode.arity_le (op : Opcode) : op.arity ≤ 3 := by
  cases op <;> decide

/-- The mode of digit 0 is Position (R64). -/
theorem Mode.digit_eq_zero {m : Mode} : m.digit = 0 ↔ m = .position := by
  cases m <;> decide

/-- No reserved digit is set: digits 5 and up are 0, and so is the mode digit of every parameter above the `n` that the
instruction has (R74). -/
theorem reservedDigitSet_eq_false {n w : Nat} :
    reservedDigitSet n w = false ↔
      w / 100000 = 0 ∧ (n < 1 → digit w 2 = 0) ∧ (n < 2 → digit w 3 = 0) ∧ (n < 3 → digit w 4 = 0) := by
  simp [reservedDigitSet, and_assoc]

/-- A head is what its word decodes to exactly if it is legal, its reserved digits are 0, and the word is its number
(R66, R77). -/
theorem decodeHead_eq_ok {extended : Bool} {w : Int} {h : Head} :
    decodeHead extended w = .ok h ↔
      (h.op.legal extended = true ∧ h.m1.legal extended = true ∧ h.m2.legal extended = true ∧
        h.m3.legal extended = true) ∧ h.Reserved ∧ w = h.number := by
  constructor
  case mp =>
    intro hd
    unfold decodeHead at hd
    split at hd
    · cases hd
    · split at hd
      · cases hd
      · next op hop =>
        split at hd
        · cases hd
        · next hres =>
          split at hd
          · next m1 m2 m3 h1 h2 h3 =>
            cases hd
            obtain ⟨lop, cop⟩ := Opcode.ofCode_eq_some hop
            obtain ⟨l1, c1⟩ := Mode.ofDigit_eq_some h1
            obtain ⟨l2, c2⟩ := Mode.ofDigit_eq_some h2
            obtain ⟨l3, c3⟩ := Mode.ofDigit_eq_some h3
            obtain ⟨c4, r1, r2, r3⟩ := reservedDigitSet_eq_false.1 (Bool.eq_false_iff.2 hres)
            refine ⟨⟨lop, l1, l2, l3⟩, ⟨fun ha => ?_, fun ha => ?_, fun ha => ?_⟩, ?_⟩
            · exact Mode.digit_eq_zero.1 (c1.trans (r1 ha))
            · exact Mode.digit_eq_zero.1 (c2.trans (r2 ha))
            · exact Mode.digit_eq_zero.1 (c3.trans (r3 ha))
            · simp only [digit, Nat.reducePow] at c1 c2 c3
              simp only [Head.number]
              omega
          · cases hd
  case mpr =>
    rintro ⟨⟨lop, l1, l2, l3⟩, hr, rfl⟩
    exact decodeHead_number lop l1 l2 l3 hr

/-- Settles O4: the digits of a word that decodes are those of the head's number, and the number of a legal head decodes
to it. -/
theorem theWordsThatDecode : Obligations.TheWordsThatDecode := by
  unfold Obligations.TheWordsThatDecode
  intro extended w h
  simp only [decodeHead_eq_ok, Head.Reserved, Head.number, and_assoc, Nat.cast_add, Nat.cast_mul, Nat.cast_ofNat]

/-- With as many cells at the front as the opcode has parameters, these are the raw values (R62, R67). -/
theorem Head.takeParams_append {h : Head} {raws : List Int} (hl : raws.length = h.op.arity) (rest : List Int) :
    h.takeParams (raws ++ rest) = .ok (h.instr (raws.getD 0 0) (raws.getD 1 0) (raws.getD 2 0), rest) := by
  have hle := h.op.arity_le
  unfold Head.takeParams
  rw [← hl] at hle ⊢
  match raws with
  | [] => rfl
  | [_] => rfl
  | [_, _] => rfl
  | [_, _, _] => rfl
  | _ :: _ :: _ :: _ :: _ =>
    simp only [List.length_cons] at hle
    omega

/-- A list with fewer cells than the opcode has parameters lacks the cell after its last one (R67). -/
theorem Head.takeParams_of_short {h : Head} {cells : List Int} (hl : cells.length < h.op.arity) :
    h.takeParams cells = .error (.missingCell (cells.length + 1)) := by
  have hle := h.op.arity_le
  unfold Head.takeParams
  generalize h.op.arity = n at hl hle ⊢
  match n, cells with
  | 1, [] | 2, [] | 3, [] | 2, [_] | 3, [_] | 3, [_, _] => rfl

/-- The two things that taking the parameters can do. -/
theorem Head.takeParams_cases (h : Head) (cells : List Int) :
    (∃ raws rest, cells = raws ++ rest ∧ raws.length = h.op.arity ∧
      h.takeParams cells = .ok (h.instr (raws.getD 0 0) (raws.getD 1 0) (raws.getD 2 0), rest)) ∨
    (cells.length < h.op.arity ∧ h.takeParams cells = .error (.missingCell (cells.length + 1))) := by
  by_cases hl : cells.length < h.op.arity
  · exact .inr ⟨hl, Head.takeParams_of_short hl⟩
  · have hlen : (cells.take h.op.arity).length = h.op.arity := by
      rw [List.length_take]
      omega
    refine .inl ⟨_, _, (List.take_append_drop h.op.arity cells).symm, hlen, ?_⟩
    conv_lhs => rw [← List.take_append_drop h.op.arity cells]
    exact Head.takeParams_append hlen _

theorem encode_eq (i : Instr) : encode i = i.word :: i.raws := rfl

/-- Settles O2: the instruction word decodes to the instruction's head, and the cells after it are the raw values that
make the instruction with that head. -/
theorem decodeOfEncodeIsTheInstruction : Obligations.DecodeOfEncodeIsTheInstruction := by
  unfold Obligations.DecodeOfEncodeIsTheInstruction
  intro extended i rest hl
  have hlen : i.raws.length = i.head.op.arity := by rw [i.raws_length, i.arity_head]
  rw [encode_eq, List.cons_append, decode_cons_head (Instr.decodeHead_word hl), Head.takeParams_append hlen,
    i.head_instr_raws]

/-- An instruction made of a head whose reserved digits are 0 has that head. -/
theorem Head.head_instr {h : Head} (hr : h.Reserved) (r1 r2 r3 : Int) : (h.instr r1 r2 r3).head = h := by
  obtain ⟨op, m1, m2, m3⟩ := h
  obtain ⟨z1, z2, z3⟩ := hr
  cases op <;> simp_all [Opcode.arity, Head.instr, Instr.head, Instr.params, Instr.opcode]

/-- An instruction made of a head and as many raw values as its opcode has parameters has these raw values. -/
theorem Head.raws_instr {h : Head} {raws : List Int} (hl : raws.length = h.op.arity) :
    (h.instr (raws.getD 0 0) (raws.getD 1 0) (raws.getD 2 0)).raws = raws := by
  obtain ⟨op, m1, m2, m3⟩ := h
  cases op with
  | add | mul | lt | eq =>
    obtain ⟨r1, r2, r3, rfl⟩ := List.length_eq_three.1 hl
    rfl
  | jnz | jz =>
    obtain ⟨r1, r2, rfl⟩ := List.length_eq_two.1 hl
    rfl
  | inp | out | changeBase =>
    obtain ⟨r1, rfl⟩ := List.length_eq_one_iff.1 hl
    rfl
  | halt =>
    obtain rfl := List.length_eq_zero_iff.1 hl
    rfl

/-- An instruction made of a legal head is legal, whatever its raw values (R62, R66). -/
theorem Head.legal_instr {extended : Bool} {h : Head}
    (hl : h.op.legal extended = true ∧ h.m1.legal extended = true ∧ h.m2.legal extended = true ∧
      h.m3.legal extended = true) (r1 r2 r3 : Int) : (h.instr r1 r2 r3).legal extended = true := by
  obtain ⟨op, m1, m2, m3⟩ := h
  obtain ⟨lop, l1, l2, l3⟩ := hl
  cases op <;> simp_all [Head.instr, Instr.legal, Instr.opcode, Instr.params]

/-- A list of cells that decodes starts with a word that decodes, and its raw values and the rest follow. -/
theorem decode_eq_ok {extended : Bool} {cells rest : List Int} {i : Instr}
    (h : decode extended cells = .ok (i, rest)) :
    ∃ w hd raws, cells = w :: (raws ++ rest) ∧ decodeHead extended w = .ok hd ∧ raws.length = hd.op.arity ∧
      i = hd.instr (raws.getD 0 0) (raws.getD 1 0) (raws.getD 2 0) := by
  cases cells with
  | nil => cases h
  | cons w cells =>
    cases hd : decodeHead extended w with
    | error f => cases (decode_cons_fault hd cells).symm.trans h
    | ok hd' =>
      have h' := (decode_cons_head hd cells).symm.trans h
      obtain ⟨raws, rest', rfl, hlen, ht⟩ | ⟨_, ht⟩ := hd'.takeParams_cases cells
      · cases ht.symm.trans h'
        exact ⟨w, hd', raws, rfl, hd, hlen, rfl⟩
      · cases ht.symm.trans h'

/-- Settles O3: the word that decodes is the number of a legal head, and the instruction made of that head has it as its
head and the cells after the word as its raw values. -/
theorem encodeOfDecodeIsTheCells : Obligations.EncodeOfDecodeIsTheCells := by
  unfold Obligations.EncodeOfDecodeIsTheCells
  intro extended cells rest i h
  obtain ⟨w, hd, raws, rfl, hw, hlen, rfl⟩ := decode_eq_ok h
  obtain ⟨hlegal, hres, rfl⟩ := decodeHead_eq_ok.1 hw
  refine ⟨Head.legal_instr hlegal _ _ _, ?_⟩
  rw [encode_eq, Head.raws_instr hlen, Instr.word, Head.head_instr hres, List.cons_append]

/-- Settles O1: each list is decoded by the digits of its word. -/
theorem wordsOfTheSpecDecode : Obligations.WordsOfTheSpecDecode := by
  unfold Obligations.WordsOfTheSpecDecode
  decide

end Sys2Proof
end

section
/-! PROOFS. The values that a fetch yields (R34 (f), R62): the raw values of a fetched instruction are contents of
cells, and the length of an instruction keeps `pc` in `Int_X` within the bound of R8. -/

namespace Sys2Proof

/-- No instruction is longer than four cells (R62). -/
theorem Instr.length_le (i : Instr) : i.length ≤ 4 := by
  have := i.head.op.arity_le
  rw [i.arity_head] at this
  rw [Instr.length]
  omega

end Sys2Proof

namespace Sys2Proof.Machine

/-- A fetched instruction came from a `pc` in memory, a word that decodes and the parameter cells after it (R111). -/
theorem State.fetch_eq_ok {s : State} {i : Instr} (h : s.fetch = .ok i) :
    s.mem.InRange s.pc ∧ ∃ hd raws, decodeHead s.extended (s.mem.cell s.pc.toNat) = .ok hd ∧
      s.paramCells hd.op.arity (s.pc + 1) = .ok raws ∧
      i = hd.instr (raws.getD 0 0) (raws.getD 1 0) (raws.getD 2 0) := by
  by_cases hr : s.mem.InRange s.pc
  · refine ⟨hr, ?_⟩
    cases hh : decodeHead s.extended (s.mem.cell s.pc.toNat) with
    | error f => cases (State.fetch_of_head_fault hr hh).symm.trans h
    | ok hd =>
      rw [State.fetch_of_head hr hh] at h
      cases hp : s.paramCells hd.op.arity (s.pc + 1) with
      | error f =>
        rw [hp] at h
        cases h
      | ok raws =>
        rw [hp] at h
        cases h
        exact ⟨hd, raws, rfl, hp, rfl⟩
  · cases (State.fetch_of_pc_out hr).symm.trans h

/-- An answered read is the content of a cell, so in `Int_X` where the cells are. -/
theorem State.memRead_inX {s : State} {a v : Int} {k : AccessKind} (hm : ∀ c ∈ s.mem.cells, InX s.xlen c.2)
    (h : s.memRead a k = .ok v) : InX s.xlen v := by
  obtain ⟨_, rfl⟩ := State.memRead_eq_ok.1 h
  exact Memory.cell_inX hm _

/-- Parameter fetch that succeeds read its first cell and then the others. -/
theorem State.paramCells_succ_eq_ok {s : State} {n : Nat} {a : Int} {raws : List Int}
    (h : s.paramCells (n + 1) a = .ok raws) :
    ∃ v rest, raws = v :: rest ∧ s.memRead a .param = .ok v ∧ s.paramCells n (a + 1) = .ok rest := by
  cases h0 : s.memRead a .param with
  | error e =>
    simp only [State.paramCells, h0, bind, Except.bind] at h
    cases h
  | ok v =>
    cases h1 : s.paramCells n (a + 1) with
    | error e =>
      simp only [State.paramCells, h0, h1, bind, Except.bind] at h
      cases h
    | ok rest =>
      simp only [State.paramCells, h0, h1, bind, Except.bind] at h
      cases h
      exact ⟨v, rest, rfl, rfl, rfl⟩

theorem State.paramCells_length {s : State} {n : Nat} {a : Int} {raws : List Int}
    (h : s.paramCells n a = .ok raws) : raws.length = n := by
  induction n generalizing a raws with
  | zero =>
    cases h
    rfl
  | succ n ih =>
    obtain ⟨v, rest, rfl, _, hrest⟩ := State.paramCells_succ_eq_ok h
    rw [List.length_cons, ih hrest]

/-- The raw values that parameter fetch yields are in `Int_X` where the cells are. -/
theorem State.paramCells_inX {s : State} (hm : ∀ c ∈ s.mem.cells, InX s.xlen c.2) {n : Nat} {a : Int}
    {raws : List Int} (h : s.paramCells n a = .ok raws) : AllInX s.xlen raws := by
  induction n generalizing a raws with
  | zero =>
    cases h
    exact fun _ hv => absurd hv List.not_mem_nil
  | succ n ih =>
    obtain ⟨v, rest, rfl, hv, hrest⟩ := State.paramCells_succ_eq_ok h
    exact List.forall_mem_cons.2 ⟨State.memRead_inX hm hv, ih hrest⟩

/-- The raw values of a fetched instruction are in `Int_X` where the cells are (R62). -/
theorem State.fetch_raw_inX {s : State} {i : Instr} (hm : ∀ c ∈ s.mem.cells, InX s.xlen c.2)
    (h : s.fetch = .ok i) {p : Param} (hp : p ∈ i.params) : InX s.xlen p.raw := by
  obtain ⟨_, hd, raws, _, hraws, rfl⟩ := State.fetch_eq_ok h
  have hmem : p.raw ∈ raws := Head.raws_instr (State.paramCells_length hraws) ▸ List.mem_map_of_mem hp
  exact State.paramCells_inX hm hraws _ hmem

/-- From a `pc` in memory, the next four indices are in `Int_X` within the bound of R8 on `MEM_LEN`. -/
theorem pc_add_inX {s : State} (hb : s.mem.len + 4 ≤ halfRange s.xlen) (hr : s.mem.InRange s.pc) {n : Nat}
    (hn : n ≤ 4) : InX s.xlen (s.pc + n) := by
  omega

end Sys2Proof.Machine
end

section
/-! PROOFS. The invariants of 10_state.md section 4 (R34): one lemma per operation of the state, then what an end of an
instruction, a step, an event and a sequence of events keep. -/

namespace Sys2Proof.Machine

open Sys2Proof.Claims

namespace State.Inv

variable {s : State}

/-- Within the bound of R8 a core has at least two bits. -/
theorem two_le_xlen (h : s.Inv) : 2 ≤ s.xlen := by
  by_contra hx
  have hone : halfRange s.xlen = 1 := by
    rw [halfRange, show s.xlen - 1 = 0 by omega, pow_zero]
  have := h.mem_bound
  omega

/-- A core that is RUNNING has no fault recorded. -/
theorem cause_of_running (h : s.Inv) (hr : s.rs = .running) : s.cause = .noFault := by
  by_contra hc
  exact absurd (hr.symm.trans (h.faulted_iff.2 hc)) (by decide)

/-- A core that is RUNNING has not halted. -/
theorem halted_of_running (h : s.Inv) (hr : s.rs = .running) : s.halted = false := by
  rw [← Bool.not_eq_true, h.halted_iff, hr]
  decide

/-- A core that is not RUNNING is idle. -/
theorem idle_of_not_running (h : s.Inv) (hr : s.rs ≠ .running) : s.busy = false :=
  Bool.eq_false_iff.2 fun hb => hr (h.busy_running hb)

/-- The invariant of SUSPENDED says nothing of a core that is RUNNING. -/
theorem suspended_of_running (hr : s.rs = .running) {p : Prop} (hs : s.rs = .suspended) : p :=
  absurd (hr.symm.trans hs) (by decide)

section
variable (h : s.Inv) (hr : s.rs = .running)
include h hr

theorem setCell {d : Nat} (hd : d < s.mem.len) {v : Int} (hv : InX s.xlen v) : (s.setCell d v).Inv :=
  { h with
    suspended_at_in := suspended_of_running hr
    mem_wf := Memory.setCell_wf h.mem_wf hd v
    cells_inX := Memory.setCell_inX h.cells_inX d hv }

theorem setPc {v : Int} (hv : InX s.xlen v) : (s.setPc v).Inv :=
  { h with
    suspended_at_in := suspended_of_running hr
    pc_inX := hv }

theorem advance {n : Nat} (hn : InX s.xlen (s.pc + n)) : (s.advance n).Inv :=
  h.setPc hr hn

theorem pushOut {v : Int} (hv : InX s.xlen v) : (s.pushOut v).Inv :=
  { h with
    suspended_at_in := suspended_of_running hr
    outq_inX := List.forall_mem_append.2 ⟨h.outq_inX, List.forall_mem_singleton.2 hv⟩ }

theorem popIn : s.popIn.Inv :=
  { h with
    suspended_at_in := suspended_of_running hr
    inq_inX := fun v hv => h.inq_inX v (List.mem_of_mem_tail hv) }

theorem setBase {v : Int} (hv : InX s.xlen v) : (s.setBase v).Inv := by
  unfold State.setBase
  split
  · next he =>
    exact { h with
      suspended_at_in := suspended_of_running hr
      rb_inX := hv
      base_variant := fun hf => absurd (he.symm.trans hf) (by decide) }
  · exact h

theorem raise {f : FaultRecord} (hf : f.Sound) : (s.raise f).Inv :=
  { h with
    halted_iff := by simp [h.halted_of_running hr]
    busy_running := by simp
    suspended_at_in := by simp
    faulted_iff := by simpa using hf.1
    no_fault_record := fun hc => absurd hc hf.1
    kind_iff := hf.2 }

theorem halt : s.halt.Inv :=
  { h with
    halted_iff := by simp
    busy_running := by simp
    suspended_at_in := by simp
    faulted_iff := by simp [h.cause_of_running hr] }

theorem suspend (hq : s.inq = []) {a : Param} (hf : s.fetch = .ok (.inp a)) : s.suspend.Inv :=
  { h with
    halted_iff := by simp [h.halted_of_running hr]
    busy_running := by simp
    suspended_at_in := fun _ => ⟨hq, a, by rw [← hf]; exact State.fetch_congr rfl rfl rfl⟩
    faulted_iff := by simp [h.cause_of_running hr] }

end
end State.Inv

/-- What an instruction computes to store is in `Int_X` (R82, R95, R96). -/
theorem aluOf_inX {xlen : Nat} (hx : 2 ≤ xlen) {op : Opcode} {f : Int → Int → Int} (hf : aluOf xlen op = some f)
    (x y : Int) : InX xlen (f x y) := by
  cases op with
  | add | mul =>
    cases hf
    exact wrapX_inX (by omega) _
  | lt =>
    cases hf
    exact aluLt_inX hx x y
  | eq =>
    cases hf
    exact aluEq_inX hx x y
  | inp | out | jnz | jz | changeBase | halt => cases hf

/-- Every end of a fetched instruction of a RUNNING core meets the invariants. -/
theorem ExecEnd.inv {i : Instr} {s t : State} (hend : ExecEnd i s t) (h : s.Inv) (hr : s.rs = .running)
    (hf : s.fetch = .ok i) : t.Inv := by
  have hpc : ∀ {n : Nat}, n ≤ 4 → InX s.xlen (s.pc + n) := pc_add_inX h.mem_bound (State.fetch_eq_ok hf).1
  have hread : ∀ {p : Param} {x : Int}, p ∈ i.params → s.rd p = .ok x → InX s.xlen x := fun hp =>
    State.rd_inX h.cells_inX (State.fetch_raw_inX h.cells_inX hf hp)
  cases hend with
  | faulted f hs => exact h.raise hr hs
  | suspended a hi hq => exact h.suspend hr hq (hi ▸ hf)
  | halted => exact h.halt hr
  | stored a b c f x y d _ halu _ _ _ hd =>
    exact (h.setCell hr (State.wa_lt hd) (aluOf_inX h.two_le_xlen halu x y)).advance hr (hpc le_rfl)
  | inputStored a d v rest _ hq hd =>
    have hv : InX s.xlen v := h.inq_inX v (hq ▸ List.mem_cons_self)
    exact ((h.setCell hr (State.wa_lt hd) hv).popIn hr).advance hr (hpc (by omega))
  | emitted a x hi ha =>
    subst hi
    exact (h.pushOut hr (hread List.mem_cons_self ha)).advance hr (hpc (by omega))
  | jumped a b x y hi _ hb =>
    have hmem : b ∈ i.params := by
      obtain ⟨rfl, _⟩ | ⟨rfl, _⟩ := hi <;> simp [Instr.params]
    exact h.setPc hr (hread hmem hb)
  | notTaken => exact h.advance hr (hpc (by omega))
  | rebased a x _ _ =>
    have hsum : InX s.xlen (aluAdd s.xlen s.base x) := wrapX_inX (by have := h.two_le_xlen; omega) _
    exact (h.setBase hr hsum).advance (by simpa using hr) (by simpa using hpc (n := 2) (by omega))

/-- Settles O41: an idle core keeps its state, a failed fetch is a fault entry, and every end of an instruction meets
the invariants. -/
theorem stepKeepsTheInvariants : Obligations.StepKeepsTheInvariants := by
  unfold Obligations.StepKeepsTheInvariants
  intro s t h hst
  obtain ⟨_, hs⟩ | ⟨f, hb, _, hsound, hs⟩ | ⟨i, u, hb, hf, hs, hend⟩ := step_cases s
  all_goals cases hs.symm.trans hst
  · exact h
  · exact h.raise (h.busy_running hb) hsound
  · exact hend.inv h (h.busy_running hb) hf

/-- Settles O40: the memory that an image and `PAD` make is canonical with its cells in `Int_X`, and every other piece
of state has a fixed reset value. -/
theorem constructionMeetsTheInvariants : Obligations.ConstructionMeetsTheInvariants := by
  unfold Obligations.ConstructionMeetsTheInvariants
  intro xlen extended image pad hlen himage
  exact {
    halted_iff := by simp [construct]
    busy_running := fun _ => rfl
    suspended_at_in := by simp [construct]
    faulted_iff := by simp [construct]
    no_fault_record := fun _ => ⟨rfl, rfl⟩
    kind_iff := by simp [construct]
    mem_wf := Memory.ofImage_wf image pad
    mem_bound := hlen
    cells_inX := cellsOfImage_inX himage 0
    pc_inX := zero_inX xlen
    rb_inX := zero_inX xlen
    inq_inX := fun _ hv => absurd hv List.not_mem_nil
    outq_inX := fun _ hv => absurd hv List.not_mem_nil
    base_variant := fun _ => rfl }

/-- Settles O39: `State.reset` is a construction within the host's premises. -/
theorem resetStateMeetsTheInvariants : Obligations.ResetStateMeetsTheInvariants := by
  unfold Obligations.ResetStateMeetsTheInvariants
  have hreset : State.reset = construct Config.xlen Config.extended [] Config.resetPad := by
    simp [State.reset, construct, Memory.ofImage, cellsOfImage]
  have hlegal : MemLenLegal Config.xlen [] Config.resetPad := by decide
  refine ⟨hreset, rfl, ?_⟩
  rw [hreset]
  exact constructionMeetsTheInvariants _ _ [] _ hlegal (fun _ hv => absurd hv List.not_mem_nil)

/-- A start is permitted to an idle core in RUNNING or SUSPENDED (R114). -/
theorem State.startPermitted_iff {s : State} :
    s.startPermitted = true ↔ s.busy = false ∧ (s.rs = .running ∨ s.rs = .suspended) := by
  simp [State.startPermitted]

/-- The transition of a permitted start keeps the invariants, for an input in `Int_X` (R114, R122). -/
theorem State.Inv.startRun {s : State} (h : s.Inv) (hp : s.startPermitted = true) {input : List Int}
    (hin : AllInX s.xlen input) : (s.startRun input).Inv := by
  have hrs := (State.startPermitted_iff.1 hp).2
  have hcause : s.cause = .noFault := by
    by_contra hc
    rw [h.faulted_iff.2 hc] at hrs
    exact absurd hrs (by decide)
  have hhalted : s.halted = false := by
    rw [Bool.eq_false_iff, ne_eq, h.halted_iff]
    intro hs
    rw [hs] at hrs
    exact absurd hrs (by decide)
  exact { h with
    halted_iff := by simp [hhalted]
    busy_running := fun _ => rfl
    suspended_at_in := by simp
    faulted_iff := by simp [hcause]
    inq_inX := hin
    outq_inX := fun _ hv => absurd hv List.not_mem_nil }

theorem State.start_of_permitted {s : State} (hp : s.startPermitted = true) (input : List Int) :
    s.start input = s.startRun input := by
  simp only [State.start, hp, if_true]

/-- Where a start is not permitted it changes nothing (R119). -/
theorem State.start_of_not_permitted {s : State} (hp : s.startPermitted = false) (input : List Int) :
    s.start input = s := by
  simp [State.start, hp]

theorem Event.hostStart_of_permitted {s : State} {input : List Int} (hp : s.startPermitted = true)
    (hin : AllInX s.xlen input) : (Event.hostStart input).apply s = .next (s.startRun input) :=
  (if_neg fun h => h.2 hin).trans (congrArg _ (State.start_of_permitted hp input))

theorem Event.hostStart_of_not_inX {s : State} {input : List Int} (hp : s.startPermitted = true)
    (hin : ¬ AllInX s.xlen input) : (Event.hostStart input).apply s = .refused .hostValueOutOfRange :=
  if_pos ⟨hp, hin⟩

/-- Where a start is not permitted it changes nothing as an event, whatever its input (R119). -/
theorem Event.hostStart_of_not_permitted {s : State} (hp : s.startPermitted = false) (input : List Int) :
    (Event.hostStart input).apply s = .next s := by
  simp [Event.apply, hp, State.start_of_not_permitted]

theorem Event.hostReset_of_legal {s : State} {image : List Int} {pad : Nat} (hl : MemLenLegal s.xlen image pad)
    (hi : AllInX s.xlen image) :
    (Event.hostReset image pad).apply s = .next (construct s.xlen s.extended image pad) :=
  (if_neg (not_not.2 hl)).trans (if_neg (not_not.2 hi))

theorem Event.hostReset_of_not_memLenLegal {s : State} {image : List Int} {pad : Nat}
    (hl : ¬ MemLenLegal s.xlen image pad) : (Event.hostReset image pad).apply s = .refused .memLenOutOfBounds :=
  if_pos hl

theorem Event.hostReset_of_not_inX {s : State} {image : List Int} {pad : Nat} (hl : MemLenLegal s.xlen image pad)
    (hi : ¬ AllInX s.xlen image) : (Event.hostReset image pad).apply s = .refused .hostValueOutOfRange :=
  (if_neg (not_not.2 hl)).trans (if_pos hi)

/-- Every event that the model does not refuse keeps the invariants. -/
theorem Event.apply_inv {e : Event} {s t : State} (h : s.Inv) (he : e.apply s = .next t) : t.Inv := by
  cases e with
  | coreStep => exact stepKeepsTheInvariants s t h he
  | hostStart input =>
    cases hp : s.startPermitted with
    | false =>
      cases (Event.hostStart_of_not_permitted hp input).symm.trans he
      exact h
    | true =>
      by_cases hin : AllInX s.xlen input
      · cases (Event.hostStart_of_permitted hp hin).symm.trans he
        exact h.startRun hp hin
      · cases (Event.hostStart_of_not_inX hp hin).symm.trans he
  | hostReset image pad =>
    by_cases hl : MemLenLegal s.xlen image pad
    · by_cases hi : AllInX s.xlen image
      · cases (Event.hostReset_of_legal hl hi).symm.trans he
        exact constructionMeetsTheInvariants _ _ image pad hl hi
      · cases (Event.hostReset_of_not_inX hl hi).symm.trans he
    · cases (Event.hostReset_of_not_memLenLegal hl).symm.trans he

theorem applyEvents_cons {e : Event} {s t : State} (h : e.apply s = .next t) (es : List Event) :
    applyEvents (e :: es) s = applyEvents es t := by
  simp only [applyEvents, h]

/-- A sequence of events that leads to a state made its first event, and the others from the state after it. -/
theorem applyEvents_cons_eq_next {e : Event} {es : List Event} {s t : State}
    (h : applyEvents (e :: es) s = .next t) : ∃ u, e.apply s = .next u ∧ applyEvents es u = .next t := by
  cases he : e.apply s with
  | next u => exact ⟨u, rfl, (applyEvents_cons he es).symm.trans h⟩
  | fault f =>
    simp only [applyEvents, he] at h
    cases h
  | refused r =>
    simp only [applyEvents, he] at h
    cases h

/-- Settles O42, by induction on the sequence: every event keeps the invariants. -/
theorem eventsKeepTheInvariants : Obligations.EventsKeepTheInvariants := by
  unfold Obligations.EventsKeepTheInvariants
  intro es
  induction es with
  | nil =>
    intro s t h hst
    cases hst
    exact h
  | cons e es ih =>
    intro s t h hst
    obtain ⟨u, he, hes⟩ := applyEvents_cons_eq_next hst
    exact ih u t (Event.apply_inv h he) hes

/-- A core in HALTED or FAULTED is not RUNNING and permits no start (R114). -/
theorem State.startPermitted_of_stopped {s : State} (hs : s.rs = .halted ∨ s.rs = .faulted) :
    s.rs ≠ .running ∧ s.startPermitted = false := by
  obtain hs | hs := hs <;> simp [State.startPermitted, hs]

/-- A core in HALTED or FAULTED is left as it is by every event but a reset. -/
theorem Event.apply_of_stopped {e : Event} {s : State} (h : s.Inv) (hs : s.rs = .halted ∨ s.rs = .faulted)
    (he : ¬ IsReset e) : e.apply s = .next s := by
  obtain ⟨hrun, hp⟩ := State.startPermitted_of_stopped hs
  cases e with
  | coreStep => exact step_idle (h.idle_of_not_running hrun)
  | hostStart input => exact Event.hostStart_of_not_permitted hp input
  | hostReset image pad => exact absurd trivial he

/-- Settles O43, by induction on the sequence: no event but a reset changes such a core. -/
theorem haltedAndFaultedArePermanent : Obligations.HaltedAndFaultedArePermanent := by
  unfold Obligations.HaltedAndFaultedArePermanent
  intro es s h hs hno
  induction es with
  | nil => rfl
  | cons e es ih =>
    obtain ⟨he, hes⟩ := List.forall_mem_cons.1 hno
    rw [applyEvents_cons (Event.apply_of_stopped h hs he)]
    exact ih hes

end Sys2Proof.Machine
end

section
/-! PROOFS. The words with an opcode of the variant that do not decode (R66, R73, R74): a reserved digit that is set is
noticed before a mode digit that selects no mode. -/

namespace Sys2Proof

/-- No reserved digit is set: digits 5 and up are 0, and so is the mode digit of each parameter `k` above the `n` that
the instruction has (R74). -/
theorem reservedDigitSet_eq_false_iff_forall {n w : Nat} :
    reservedDigitSet n w = false ↔ w / 100000 = 0 ∧ ∀ k, n < k → k ≤ 3 → digit w (k + 1) = 0 := by
  rw [reservedDigitSet_eq_false]
  refine and_congr_right fun _ => ⟨fun ⟨h1, h2, h3⟩ k hn hk => ?_, fun h => ⟨?_, ?_, ?_⟩⟩
  · have hpos : 1 ≤ k := by omega
    interval_cases k
    · exact h1 hn
    · exact h2 hn
    · exact h3 hn
  · exact fun hn => h 1 hn (by decide)
  · exact fun hn => h 2 hn (by decide)
  · exact fun hn => h 3 hn (by decide)

/-- A digit that is the digit of no legal mode selects none (R73). -/
theorem Mode.ofDigit_eq_none_of_no_digit {extended : Bool} {n : Nat}
    (h : ∀ m : Mode, m.legal extended = true → n ≠ m.digit) : Mode.ofDigit extended n = none := by
  cases hd : Mode.ofDigit extended n with
  | none => rfl
  | some m =>
    obtain ⟨hlegal, hdigit⟩ := Mode.ofDigit_eq_some hd
    exact absurd hdigit.symm (h m hlegal)

section
variable {extended : Bool} {n : Nat} {op : Opcode}

/-- With the opcode found, a reserved digit that is set is refused, whatever the other digits (R66, R74). -/
theorem decodeHead_of_reserved (hop : Opcode.ofCode extended (n % 100) = some op)
    (hres : reservedDigitSet op.arity n = true) : decodeHead extended n = .error .reservedDigits := by
  unfold decodeHead
  rw [if_neg (Int.not_lt.2 (Int.natCast_nonneg _)), Int.toNat_natCast, hop]
  exact if_pos hres

/-- With the opcode found and no reserved digit set, a mode digit that selects no mode is refused (R66, R73). -/
theorem decodeHead_of_no_mode (hop : Opcode.ofCode extended (n % 100) = some op)
    (hres : reservedDigitSet op.arity n = false) {k : Nat} (h1 : 1 ≤ k) (h3 : k ≤ 3)
    (hmode : Mode.ofDigit extended (digit n (k + 1)) = none) : decodeHead extended n = .error .invalidMode := by
  unfold decodeHead
  rw [if_neg (Int.not_lt.2 (Int.natCast_nonneg _)), Int.toNat_natCast, hop]
  refine (if_neg (by simp [hres])).trans ?_
  split
  · next m1 m2 m3 d1 d2 d3 =>
    interval_cases k
    · cases hmode.symm.trans d1
    · cases hmode.symm.trans d2
    · cases hmode.symm.trans d3
  · rfl

end

/-- Decode answers reserved digits for every word that R135 names. -/
theorem decodeHead_reservedDigits {extended : Bool} {w : Int} {op : Opcode} (hw : 0 ≤ w)
    (hl : op.legal extended = true) (hc : w % 100 = op.code)
    (h : w / 100000 ≠ 0 ∨ ∃ k : Nat, op.arity < k ∧ k ≤ 3 ∧ w / 10 ^ (k + 1) % 10 ≠ 0) :
    decodeHead extended w = .error .reservedDigits := by
  lift w to ℕ using hw
  have hop : Opcode.ofCode extended (w % 100) = some op := by
    rw [show w % 100 = op.code by exact_mod_cast hc, Opcode.ofCode_code hl]
  refine decodeHead_of_reserved hop (Bool.not_eq_false _ ▸ fun hf => ?_)
  obtain ⟨hhigh, hlow⟩ := reservedDigitSet_eq_false_iff_forall.1 hf
  obtain h | ⟨k, hk, hk3, h⟩ := h
  · exact h (by exact_mod_cast hhigh)
  · exact h (by exact_mod_cast hlow k hk hk3)

/-- Decode answers an invalid mode for every word that R134 names. -/
theorem decodeHead_invalidMode {extended : Bool} {w : Int} {op : Opcode} {k : Nat} (hw : 0 ≤ w)
    (hl : op.legal extended = true) (hc : w % 100 = op.code) (hhigh : w / 100000 = 0)
    (hlow : ∀ j : Nat, op.arity < j → j ≤ 3 → w / 10 ^ (j + 1) % 10 = 0) (h1 : 1 ≤ k) (hk : k ≤ op.arity)
    (h : ∀ m : Mode, m.legal extended = true → w / 10 ^ (k + 1) % 10 ≠ m.digit) :
    decodeHead extended w = .error .invalidMode := by
  lift w to ℕ using hw
  have hop : Opcode.ofCode extended (w % 100) = some op := by
    rw [show w % 100 = op.code by exact_mod_cast hc, Opcode.ofCode_code hl]
  have hres : reservedDigitSet op.arity w = false :=
    reservedDigitSet_eq_false_iff_forall.2
      ⟨by exact_mod_cast hhigh, fun j hj hj3 => by exact_mod_cast hlow j hj hj3⟩
  have hmode : Mode.ofDigit extended (digit w (k + 1)) = none :=
    Mode.ofDigit_eq_none_of_no_digit fun m hm => by exact_mod_cast h m hm
  exact decodeHead_of_no_mode hop hres h1 (hk.trans op.arity_le) hmode

end Sys2Proof

namespace Sys2Proof.Machine

open Sys2Proof.Claims

/-- Settles O6: decode refuses each of these words for its reserved digits, and the step is the fault entry with the
record of that refusal. -/
theorem reservedDigitsAreRaised : Obligations.ReservedDigitsAreRaised := by
  unfold Obligations.ReservedDigitsAreRaised
  refine ⟨rfl, ?raised⟩
  case raised =>
    rintro s w op hb hr rfl hw hl hc h
    exact step_of_head_fault hb hr (decodeHead_reservedDigits hw hl hc h)

/-- Settles O7: decode refuses each of these words for its mode digit, and the step is the fault entry with the record
of that refusal. -/
theorem invalidModeIsRaised : Obligations.InvalidModeIsRaised := by
  unfold Obligations.InvalidModeIsRaised
  refine ⟨rfl, ?raised⟩
  case raised =>
    rintro s w op k hb hr rfl hw hl hc hhigh hlow h1 hk h
    exact step_of_head_fault hb hr (decodeHead_invalidMode hw hl hc hhigh hlow h1 hk h)

end Sys2Proof.Machine
end

section
/-! PROOFS. Halt (44_base_and_halt.md): it has no parameters, so its word is its code. -/

namespace Sys2Proof

@[simp] theorem Instr.word_halt : Instr.halt.word = 99 := rfl

/-- 99 is the only word of Halt, every other digit being reserved (R101). -/
theorem decodeHead_halt_iff {extended : Bool} {w : Int} :
    (∃ h, decodeHead extended w = .ok h ∧ h.op = .halt) ↔ w = 99 := by
  constructor
  case mp =>
    rintro ⟨⟨_, m1, m2, m3⟩, hd, rfl⟩
    obtain ⟨_, ⟨z1, z2, z3⟩, rfl⟩ := decodeHead_eq_ok.1 hd
    obtain rfl : m1 = .position := z1 (Nat.succ_pos _)
    obtain rfl : m2 = .position := z2 (Nat.succ_pos _)
    obtain rfl : m3 = .position := z3 (Nat.succ_pos _)
    rfl
  case mpr =>
    rintro rfl
    exact ⟨Instr.halt.head, Instr.decodeHead_word (i := .halt) rfl, rfl⟩

end Sys2Proof

namespace Sys2Proof.Machine

open Sys2Proof.Claims

/-- Settles O22: the word 99 fetches Halt without a parameter cell, and Halt writes `halted`, `rs` and `busy`. -/
theorem haltStopsTheCore : Obligations.HaltStopsTheCore := by
  unfold Obligations.HaltStopsTheCore
  refine ⟨fun _ _ => decodeHead_halt_iff, fun _ => rfl, fun s hb hr hw => ?_⟩
  have hfetch : s.fetch = .ok .halt := State.fetch_of_instr_cells hr (hw.trans Instr.word_halt.symm) rfl rfl
  exact step_fetched hb hfetch

end Sys2Proof.Machine
end

section
/-! PROOFS. In (41_io.md): its queue is tested before its target, and a completed In writes one cell, `pc` and `inq`. -/

namespace Sys2Proof.Machine

open Sys2Proof.Claims

section
variable {s : State} {a : Param} {v : Int} {rest : List Int}

theorem exec_inp_of_empty (hq : s.inq = []) : exec (.inp a) s = .next s.suspend := by
  simp only [exec, execIn, hq]

theorem exec_inp_of_wa_error {f : FaultRecord} (hq : s.inq = v :: rest) (h : s.wa (Instr.inp a).word a = .error f) :
    exec (.inp a) s = .next (s.raise f) := by
  simp only [exec, execIn, hq, h]
  rfl

theorem exec_inp_of_wa {d : Nat} (hq : s.inq = v :: rest) (h : s.wa (Instr.inp a).word a = .ok d) :
    exec (.inp a) s = .next ((s.setCell d v).popIn.advance 2) := by
  simp only [exec, execIn, hq, h]
  rfl

end

/-- Settles O17: the queue decides whether the target is resolved at all, and with a head in it the target decides
between its fault entry and the store. -/
theorem inSuspendsOrStoresTheHead : Obligations.InSuspendsOrStoresTheHead := by
  unfold Obligations.InSuspendsOrStoresTheHead
  refine fun a => ⟨Instr.word_of_one rfl, missingCellsFault (.inp a), fun s => ⟨?empty, ?immediate, ?target, ?stored⟩⟩
  case empty => exact exec_inp_of_empty
  case immediate => exact fun v rest hq hm => exec_inp_of_wa_error hq (State.wa_eq_error.2 (.inl ⟨hm, rfl⟩))
  case target => exact fun v rest e hq he => exec_inp_of_wa_error hq (State.wa_eq_error.2 (.inr ⟨e, he, rfl⟩))
  case stored =>
    intro v rest d hw hq hd
    have hmem : OneCellStored s ((s.setCell d v).popIn.advance 2) d v := oneCellStored_setCell_advance hw d v 2
    have hcontrol : ControlKept s ((s.setCell d v).popIn.advance 2) := controlKept_setCell_advance s d v 2
    have htail : s.inq.tail = rest := by rw [hq, List.tail_cons]
    exact ⟨_, exec_inp_of_wa hq (State.wa_eq_ok.2 hd), hmem, htail, rfl, rfl, rfl, hcontrol⟩

end Sys2Proof.Machine
end

section
/-! PROOFS. Jnz and Jz (42_jumps.md): both are the shape `State.jumpIf`, which resolves two parameters and then writes
`pc` alone; an instruction supplies its word and its test. -/

namespace Sys2Proof

/-- The word of an instruction with two parameters (R77). -/
theorem Instr.word_of_two {i : Instr} {a b : Param} (hp : i.params = [a, b]) :
    i.word = 1000 * b.mode.digit + 100 * a.mode.digit + i.opcode.code := by
  simp [Instr.word, Instr.head, Head.number, Mode.digit, hp]

end Sys2Proof

namespace Sys2Proof.Machine

open Sys2Proof.Claims

theorem isNonZero_iff {x : Int} : isNonZero x = true ↔ x ≠ 0 := bne_iff_ne

theorem isZero_iff {x : Int} : isZero x = true ↔ x = 0 := beq_iff_eq

section
variable {s : State} {taken : Int → Bool} {a b : Param} {x y : Int} {e : FaultRecord}

theorem State.jumpIf_of_rd_first_error (ha : s.rd a = .error e) : s.jumpIf taken a b = .next (s.raise e) := by
  simp only [State.jumpIf, ha]
  rfl

theorem State.jumpIf_of_rd_second_error (ha : s.rd a = .ok x) (hb : s.rd b = .error e) :
    s.jumpIf taken a b = .next (s.raise e) := by
  simp only [State.jumpIf, ha, hb]
  rfl

theorem State.jumpIf_of_ok (ha : s.rd a = .ok x) (hb : s.rd b = .ok y) :
    s.jumpIf taken a b = .next (if taken x then s.setPc y else s.advance 3) := by
  simp only [State.jumpIf, ha, hb]
  rfl

theorem State.jumpIf_of_taken (ha : s.rd a = .ok x) (hb : s.rd b = .ok y) (ht : taken x = true) :
    s.jumpIf taken a b = .next (s.setPc y) := by
  rw [State.jumpIf_of_ok ha hb, if_pos ht]

end

/-- A new `pc` leaves the run state, the fault record and the parameters alone. -/
theorem controlKept_setPc (s : State) (v : Int) : ControlKept s (s.setPc v) :=
  ⟨rfl, rfl, rfl, rfl, rfl, rfl, rfl, rfl⟩

/-- An instruction whose meaning is `jumpIf` has the faults and the frame of `JumpsWhen`; it jumps where its test
says. -/
theorem jumpsWhen_of_exec {i : Instr} {a b : Param} {test : Int → Bool} {taken : Int → Prop}
    (hp : i.params = [a, b]) (hexec : ∀ s, exec i s = s.jumpIf test a b) (htest : ∀ x, test x = true ↔ taken x) :
    JumpsWhen i i.opcode.code a b taken := by
  refine ⟨Instr.word_of_two hp, missingCellsFault i, fun s => ?_⟩
  rw [hexec s]
  refine ⟨?first, ?second, ?done⟩
  case first => exact fun e ha => State.jumpIf_of_rd_first_error (State.rd_eq_error.2 ⟨e, ha, rfl⟩)
  case second =>
    exact fun x e ha hb => State.jumpIf_of_rd_second_error (State.rd_eq_ok.2 ha) (State.rd_eq_error.2 ⟨e, hb, rfl⟩)
  case done =>
    intro x y ha hb
    refine ⟨_, State.jumpIf_of_ok (State.rd_eq_ok.2 ha) (State.rd_eq_ok.2 hb), ?_⟩
    split
    · next ht =>
      exact ⟨fun _ => rfl, fun hn => absurd ((htest x).1 ht) hn, ⟨rfl, fun _ => rfl⟩, rfl, rfl, rfl,
        controlKept_setPc s y⟩
    · next ht =>
      exact ⟨fun h => absurd ((htest x).2 h) ht, fun _ => rfl, ⟨rfl, fun _ => rfl⟩, rfl, rfl, rfl,
        controlKept_setPc s _⟩

/-- Settles O19: Jnz is `jumpIf` with the test for a value that is not 0. -/
theorem jnzJumpsWhenNotZero : Obligations.JnzJumpsWhenNotZero := by
  unfold Obligations.JnzJumpsWhenNotZero
  exact fun a b => jumpsWhen_of_exec (i := .jnz a b) rfl (fun _ => rfl) fun _ => isNonZero_iff

/-- Settles O20: Jz is `jumpIf` with the test for 0. -/
theorem jzJumpsWhenZero : Obligations.JzJumpsWhenZero := by
  unfold Obligations.JzJumpsWhenZero
  exact fun a b => jumpsWhen_of_exec (i := .jz a b) rfl (fun _ => rfl) fun _ => isZero_iff

/-- A `pc` outside memory ends the step in the fault entry of the fetch (R61, R132). -/
theorem step_of_pc_out {s : State} (hb : s.busy = true) (hr : ¬ s.mem.InRange s.pc) :
    step s = .next (s.raise (.address s.pc .fetch)) :=
  step_not_fetched hb (State.fetch_of_pc_out hr)

/-- A start of a core just constructed is permitted (R114, R160). -/
theorem startPermitted_construct (xlen : Nat) (extended : Bool) (image : List Int) (pad : Nat) :
    (construct xlen extended image pad).startPermitted = true := rfl

/-- Settles O8: a memory without cells has no legal `pc`, and any `pc` outside memory faults at fetch. -/
theorem fetchOutsideMemoryFaults : Obligations.FetchOutsideMemoryFaults := by
  unfold Obligations.FetchOutsideMemoryFaults
  refine ⟨fun s => step_of_pc_out, fun xlen extended input => ?_⟩
  rw [State.start_of_permitted (startPermitted_construct xlen extended [] 0)]
  have hnone : ¬ (Memory.ofImage [] 0).InRange 0 := by decide
  exact step_of_pc_out rfl hnone

/-- Settles O35: a taken jump stores its target unchecked, and the fetch of the next step checks it. -/
theorem badJumpTargetFaultsAtTheNextFetch : Obligations.BadJumpTargetFaultsAtTheNextFetch := by
  unfold Obligations.BadJumpTargetFaultsAtTheNextFetch
  intro s a b x y hb ha hy hout
  have hnext : step (s.setPc y) = .next (Faulted (s.setPc y) .addressFault y .fetch) := step_of_pc_out hb hout
  refine ⟨fun hx => ⟨s.setPc y, ?_, hb, rfl, hnext⟩, fun hx => ⟨s.setPc y, ?_, hb, rfl, hnext⟩⟩
  · exact State.jumpIf_of_taken (State.rd_eq_ok.2 ha) (State.rd_eq_ok.2 hy) (isNonZero_iff.2 hx)
  · exact State.jumpIf_of_taken (State.rd_eq_ok.2 ha) (State.rd_eq_ok.2 hy) (isZero_iff.2 hx)

end Sys2Proof.Machine
end

section
/-! PROOFS. Mode parity (R83): an instruction sees a read parameter through `State.rd` alone; only an Immediate write
target also sees the instruction word, which is the `info` of its fault. The laws of the two comparisons stand here
too. -/

namespace Sys2Proof.Machine

open Sys2Proof.Claims

section
variable {s : State} {p q : Param}

theorem State.jumpIf_congr {a b a' b' : Param} (ha : s.rd a = s.rd a') (hb : s.rd b = s.rd b') (taken : Int → Bool) :
    s.jumpIf taken a b = s.jumpIf taken a' b' := by
  simp only [State.jumpIf, ha, hb]

/-- Write resolution sees the instruction word at an Immediate target only (R69, R133). -/
theorem State.wa_word_congr {c : Param} (hc : c.mode ≠ .immediate) (w w' : Int) : s.wa w c = s.wa w' c := by
  obtain ⟨m, v⟩ := c
  cases m with
  | position | relative => rfl
  | immediate => exact absurd rfl hc

variable {f : Int → Int → Int} {a b c a' b' : Param} (ha : s.rd a = s.rd a') (hb : s.rd b = s.rd b')
include ha hb

theorem State.computeStore_congr (hc : c.mode ≠ .immediate) (w w' : Int) :
    s.computeStore w f a b c = s.computeStore w' f a' b' c := by
  simp only [State.computeStore, ha, hb, State.wa_word_congr hc w w']

/-- With an Immediate target the instruction ends in a fault whatever its operands are, and the word makes no difference
but in `info`. -/
theorem State.computeStore_congr_but_info (hc : c.mode = .immediate) (w w' : Int) :
    ∃ t t', s.computeStore w f a b c = .next t ∧ s.computeStore w' f a' b' c = .next t' ∧ t.rs = .faulted ∧
      { t with info := 0 } = { t' with info := 0 } := by
  have hwa : ∀ u, s.wa u c = .error (.word .immediateWriteTarget u) :=
    fun u => State.wa_eq_error.2 (.inl ⟨hc, rfl⟩)
  cases hx : s.rd a' with
  | error e =>
    exact ⟨_, _, State.computeStore_of_rd_first_error (ha.trans hx), State.computeStore_of_rd_first_error hx, rfl, rfl⟩
  | ok x =>
    cases hy : s.rd b' with
    | error e =>
      exact ⟨_, _, State.computeStore_of_rd_second_error (ha.trans hx) (hb.trans hy),
        State.computeStore_of_rd_second_error hx hy, rfl, rfl⟩
    | ok y =>
      exact ⟨_, _, State.computeStore_of_wa_error (ha.trans hx) (hb.trans hy) (hwa w),
        State.computeStore_of_wa_error hx hy (hwa w'), rfl, rfl⟩

end

/-- Add, Mul, Lt and Eq are `computeStore` with a function of their own. -/
theorem exec_of_mem_storing {mk : Param → Param → Param → Instr}
    (hmk : mk ∈ [Instr.add, Instr.mul, Instr.lt, Instr.eq]) (s : State) :
    ∃ f, ∀ a b c, exec (mk a b c) s = s.computeStore (mk a b c).word f a b c := by
  simp only [List.mem_cons, List.not_mem_nil, or_false] at hmk
  obtain rfl | rfl | rfl | rfl := hmk <;> exact ⟨_, fun _ _ _ => rfl⟩

/-- Settles O23: two parameters with the same value resolve alike, and resolution is all that an instruction sees of a
read parameter. -/
theorem modeParity : Obligations.ModeParity := by
  unfold Obligations.ModeParity
  intro s p q v hp hq
  have hp' := State.rd_eq_ok.2 hp
  have hq' := State.rd_eq_ok.2 hq
  have hpq : s.rd p = s.rd q := hp'.trans hq'.symm
  refine ⟨?out, ?changeBase, ?jumps, ?storing⟩
  case out => rw [exec_out_of_rd hp', exec_out_of_rd hq']
  case changeBase => rw [exec_changeBase_of_rd hp', exec_changeBase_of_rd hq']
  case jumps =>
    exact fun b => ⟨State.jumpIf_congr hpq rfl _, State.jumpIf_congr rfl hpq _, State.jumpIf_congr hpq rfl _,
      State.jumpIf_congr rfl hpq _⟩
  case storing =>
    intro mk hmk b c
    obtain ⟨f, hf⟩ := exec_of_mem_storing hmk s
    simp only [hf]
    exact ⟨fun hc => ⟨State.computeStore_congr hpq rfl hc _ _, State.computeStore_congr rfl hpq hc _ _⟩,
      fun hc => ⟨State.computeStore_congr_but_info hpq rfl hc _ _, State.computeStore_congr_but_info rfl hpq hc _ _⟩⟩

/-- Settles O24, by the order of the two values. -/
theorem comparisonLaws : Obligations.ComparisonLaws := by
  unfold Obligations.ComparisonLaws
  intro x y
  obtain h | rfl | h := lt_trichotomy x y
  · exact .inl ⟨aluLt_of_lt h, aluEq_of_ne h.ne, aluLt_of_not_lt h.not_gt⟩
  · exact .inr (.inl ⟨aluLt_of_not_lt (lt_irrefl x), aluEq_self x, aluLt_of_not_lt (lt_irrefl x)⟩)
  · exact .inr (.inr ⟨aluLt_of_not_lt h.not_gt, aluEq_of_ne h.ne', aluLt_of_lt h⟩)

end Sys2Proof.Machine
end

section
/-! PROOFS. Frames (R112, R140): what each end of an instruction keeps, one lemma per piece of state, and from them the
frames of the instructions and of a step. -/

namespace Sys2Proof.Machine

open Sys2Proof.Claims

/-- The next state of an instruction is one of its ends. -/
theorem exec_end_of_next {i : Instr} {s t : State} (h : exec i s = .next t) : ExecEnd i s t := by
  obtain ⟨u, hu, hend⟩ := exec_end i s
  cases hu.symm.trans h
  exact hend

namespace ExecEnd

variable {i : Instr} {s t : State}

/-- The four outcomes of an instruction (R111): Fault, Suspend, Halt, or a completion that leaves the run state, the
fault record and the parameters alone. -/
theorem outcome (h : ExecEnd i s t) :
    (∃ f : FaultRecord, f.Sound ∧ t = s.raise f) ∨ (t = s.suspend ∧ s.inq = [] ∧ ∃ a, i = .inp a) ∨
      (t = s.halt ∧ i = .halt) ∨ (ControlKept s t ∧ i ≠ .halt) := by
  cases h with
  | faulted f hf => exact .inl ⟨f, hf, rfl⟩
  | suspended a hi hq => exact .inr (.inl ⟨rfl, hq, a, hi⟩)
  | halted hi => exact .inr (.inr (.inl ⟨rfl, hi⟩))
  | stored a b c f x y d hp =>
    refine .inr (.inr (.inr ⟨controlKept_setCell_advance s d _ 4, ?_⟩))
    rintro rfl
    cases hp
  | inputStored a d v rest hi =>
    exact .inr (.inr (.inr ⟨controlKept_setCell_advance s d v 2, by simp [hi]⟩))
  | emitted a x hi => exact .inr (.inr (.inr ⟨⟨rfl, rfl, rfl, rfl, rfl, rfl, rfl, rfl⟩, by simp [hi]⟩))
  | jumped a b x y hi =>
    exact .inr (.inr (.inr ⟨controlKept_setPc s y, by obtain ⟨rfl, _⟩ | ⟨rfl, _⟩ := hi <;> simp⟩))
  | notTaken a b x y hi =>
    exact .inr (.inr (.inr ⟨controlKept_setPc s _, by obtain ⟨rfl, _⟩ | ⟨rfl, _⟩ := hi <;> simp⟩))
  | rebased a x hi => exact .inr (.inr (.inr ⟨controlKept_setBase_advance s _ 2, by simp [hi]⟩))

/-- Memory is kept, or one value is stored in the cell that the write parameter names (R43, R46). -/
theorem mem_kept_or_stored (h : ExecEnd i s t) :
    t.mem = s.mem ∨ ∃ c d v, i.writeParam = some c ∧ WritesTo s c d ∧ t.mem = s.mem.setCell d v := by
  cases h with
  | stored a b c f x y d _ _ hc _ _ hd => exact .inr ⟨c, d, _, hc, State.wa_eq_ok.1 hd, rfl⟩
  | inputStored a d v rest hi _ hd => exact .inr ⟨a, d, v, by rw [hi, Instr.writeParam], State.wa_eq_ok.1 hd, rfl⟩
  | rebased => exact .inl (by simp)
  | _ => exact .inl rfl

theorem mem_len_kept (h : ExecEnd i s t) : t.mem.len = s.mem.len := by
  obtain hm | ⟨_, _, _, _, _, hm⟩ := h.mem_kept_or_stored <;> rw [hm]
  exact Memory.setCell_len ..

theorem mem_kept_of_no_target (h : ExecEnd i s t) (hn : ∀ c d, i.writeParam = some c → ¬ WritesTo s c d) :
    t.mem = s.mem := by
  obtain hm | ⟨c, d, _, hc, hd, _⟩ := h.mem_kept_or_stored
  · exact hm
  · exact absurd hd (hn c d hc)

theorem cell_kept (h : ExecEnd i s t) {c : Param} {d : Nat} (hc : i.writeParam = some c) (hd : WritesTo s c d) {a : Nat}
    (ha : a ≠ d) : t.mem.cell a = s.mem.cell a := by
  obtain hm | ⟨c', d', v, hc', hd', hm⟩ := h.mem_kept_or_stored
  · rw [hm]
  · cases hc.symm.trans hc'
    cases (State.wa_eq_ok (w := i.word).2 hd).symm.trans (State.wa_eq_ok.2 hd')
    rw [hm, Memory.cell_setCell_other s.mem ha]

theorem params_kept (h : ExecEnd i s t) : t.extended = s.extended ∧ t.xlen = s.xlen := by
  obtain ⟨f, _, rfl⟩ | ⟨rfl, _⟩ | ⟨rfl, _⟩ | ⟨⟨_, _, _, _, _, _, he, hx⟩, _⟩ := h.outcome
  · exact ⟨rfl, rfl⟩
  · exact ⟨rfl, rfl⟩
  · exact ⟨rfl, rfl⟩
  · exact ⟨he, hx⟩

theorem record_kept_unless_faulted (h : ExecEnd i s t) : RecordKeptUnlessFaulted s t := by
  obtain ⟨f, _, rfl⟩ | ⟨rfl, _⟩ | ⟨rfl, _⟩ | ⟨⟨_, _, _, hc, hi, hk, _⟩, _⟩ := h.outcome
  · exact .inr rfl
  · exact .inl ⟨rfl, rfl, rfl⟩
  · exact .inl ⟨rfl, rfl, rfl⟩
  · exact .inl ⟨hc, hi, hk⟩

theorem halted_kept (h : ExecEnd i s t) (hi : i ≠ .halt) : t.halted = s.halted := by
  obtain ⟨f, _, rfl⟩ | ⟨rfl, _⟩ | ⟨_, hh⟩ | ⟨⟨hk, _⟩, _⟩ := h.outcome
  · rfl
  · rfl
  · exact absurd hh hi
  · exact hk

theorem rb_kept (h : ExecEnd i s t) (hi : i.opcode ≠ .changeBase) : t.rb = s.rb := by
  obtain hk | ⟨_, a, rfl⟩ := h.rb_kept_or_rebased
  · exact hk
  · exact absurd rfl hi

/-- At most one queue operation: none, the head taken off `inq` by In, or one value appended to `outq` by Out (R85,
R86). -/
theorem queues (h : ExecEnd i s t) :
    (t.inq = s.inq ∧ t.outq = s.outq) ∨ (i.opcode = .inp ∧ t.outq = s.outq ∧ ∃ v, s.inq = v :: t.inq) ∨
      (i.opcode = .out ∧ t.inq = s.inq ∧ ∃ v, t.outq = s.outq ++ [v]) := by
  cases h with
  | inputStored a d v rest hi hq => exact .inr (.inl ⟨by rw [hi, Instr.opcode], rfl, v, by simp [hq]⟩)
  | emitted a x hi => exact .inr (.inr ⟨by rw [hi, Instr.opcode], rfl, x, rfl⟩)
  | rebased => exact .inl (by simp)
  | _ => exact .inl ⟨rfl, rfl⟩

theorem inq_kept (h : ExecEnd i s t) (hi : i.opcode ≠ .inp) : t.inq = s.inq := by
  obtain ⟨hk, _⟩ | ⟨hin, _⟩ | ⟨_, hk, _⟩ := h.queues
  · exact hk
  · exact absurd hin hi
  · exact hk

theorem outq_kept (h : ExecEnd i s t) (hi : i.opcode ≠ .out) : t.outq = s.outq := by
  obtain ⟨_, hk⟩ | ⟨_, hk, _⟩ | ⟨hout, _⟩ := h.queues
  · exact hk
  · exact hk
  · exact absurd hout hi

end ExecEnd

/-- Settles O25: with no write parameter memory is kept, and every other piece of state has its own lemma. -/
theorem frameOfInstructionsThatStoreNothing : Obligations.FrameOfInstructionsThatStoreNothing := by
  unfold Obligations.FrameOfInstructionsThatStoreNothing
  intro s t i hnone h
  have hend := exec_end_of_next h
  have hin : i.opcode ≠ .inp := by
    cases i <;> simp_all [Instr.writeParam, Instr.opcode]
  have hmem : t.mem = s.mem := hend.mem_kept_of_no_target (by simp [hnone])
  obtain ⟨hext, hxlen⟩ := hend.params_kept
  exact ⟨⟨by rw [hmem], fun _ => by rw [hmem]⟩, hend.inq_kept hin, hext, hxlen, hend.record_kept_unless_faulted,
    hend.outq_kept, hend.rb_kept, fun hh => hend.halted_kept fun hi => hh (by rw [hi, Instr.opcode])⟩

/-- The instructions with a write parameter (R65). -/
theorem Instr.opcode_of_writeParam {i : Instr} {c : Param} (hc : i.writeParam = some c) :
    i.opcode ∈ [Opcode.add, .mul, .inp, .lt, .eq] := by
  cases i with
  | add | mul | inp | lt | eq => simp [Instr.opcode]
  | out | jnz | jz | changeBase | halt => cases hc

/-- Settles O26: the cell that may change is the one the write parameter names, and every other piece of state has its
own lemma. -/
theorem frameOfInstructionsThatStore : Obligations.FrameOfInstructionsThatStore := by
  unfold Obligations.FrameOfInstructionsThatStore
  intro s t i c hc h
  have hend := exec_end_of_next h
  have hop := Instr.opcode_of_writeParam hc
  obtain ⟨hext, hxlen⟩ := hend.params_kept
  refine ⟨fun d hd a ha => hend.cell_kept hc hd ha, fun hn a => ?_, hend.mem_len_kept, hend.rb_kept ?_,
    hend.outq_kept ?_, hend.halted_kept ?_, hext, hxlen, hend.record_kept_unless_faulted, hend.inq_kept⟩
  · rw [hend.mem_kept_of_no_target fun c' d hc' => Option.some.inj (hc.symm.trans hc') ▸ hn d]
  · intro hi
    simp [hi] at hop
  · intro hi
    simp [hi] at hop
  · rintro rfl
    cases hc

/-- A step has a next state, whatever the state (R111, R140). -/
theorem step_next (s : State) : ∃ t, step s = .next t := by
  obtain ⟨_, hs⟩ | ⟨f, _, _, _, hs⟩ | ⟨i, t, _, _, hs, _⟩ := step_cases s <;> exact ⟨_, hs⟩

/-- The step of a busy core is a fault entry of the fetch stages or an end of the fetched instruction. -/
theorem step_busy_cases {s t : State} (hb : s.busy = true) (h : step s = .next t) :
    (∃ f : FaultRecord, f.Sound ∧ t = s.raise f) ∨ ∃ i, s.fetch = .ok i ∧ ExecEnd i s t := by
  obtain ⟨hidle, _⟩ | ⟨f, _, _, hf, hs⟩ | ⟨i, u, _, hf, hs, hend⟩ := step_cases s
  · cases hidle.symm.trans hb
  · cases hs.symm.trans h
    exact .inl ⟨f, hf, rfl⟩
  · cases hs.symm.trans h
    exact .inr ⟨i, hf, hend⟩

/-- The four outcomes of the step of a busy core: Fault, Suspend, Halt and Continue (R111). -/
theorem step_outcome {s t : State} (hb : s.busy = true) (h : step s = .next t) :
    (∃ f : FaultRecord, f.Sound ∧ t = s.raise f) ∨ (t = s.suspend ∧ s.inq = [] ∧ ∃ a, s.fetch = .ok (.inp a)) ∨
      (t = s.halt ∧ s.fetch = .ok .halt) ∨
      ∃ i, s.fetch = .ok i ∧ i ≠ .halt ∧ ControlKept s t ∧ ExecEnd i s t := by
  obtain hf | ⟨i, hi, hend⟩ := step_busy_cases hb h
  · exact .inl hf
  · obtain hf | ⟨ht, hq, a, rfl⟩ | ⟨ht, rfl⟩ | ⟨hk, hne⟩ := hend.outcome
    · exact .inl hf
    · exact .inr (.inl ⟨ht, hq, a, hi⟩)
    · exact .inr (.inr (.inl ⟨ht, hi⟩))
    · exact .inr (.inr (.inr ⟨i, hi, hne, hk, hend⟩))

/-- The fault entry of a sound record is the one the statements speak of. -/
theorem exists_faulted_of_raise {s t : State} (h : ∃ f : FaultRecord, f.Sound ∧ t = s.raise f) :
    ∃ cause info kind, cause ≠ .noFault ∧ t = Faulted s cause info kind := by
  obtain ⟨f, hf, rfl⟩ := h
  exact ⟨f.cause, f.info, f.kind, hf.1, rfl⟩

/-- Settles O28: a step has a next state, and its four outcomes are those of `step_outcome`. -/
theorem busyStepHasOneOfFourOutcomes : Obligations.BusyStepHasOneOfFourOutcomes := by
  unfold Obligations.BusyStepHasOneOfFourOutcomes
  intro s hb hr
  obtain ⟨t, ht⟩ := step_next s
  refine ⟨t, ht, ?_⟩
  obtain hf | hsusp | hhalt | ⟨i, hi, hne, ⟨hh, hrs, hbusy, _⟩, _⟩ := step_outcome hb ht
  · exact .inr (.inr (.inr (exists_faulted_of_raise hf)))
  · exact .inr (.inl hsusp)
  · exact .inr (.inr (.inl hhalt))
  · refine .inl ⟨hbusy.trans hb, hrs.trans hr, hh, fun hhalt => hne ?_⟩
    exact Except.ok.inj (hi.symm.trans hhalt)

/-- Settles O27: a fault entry, a suspension, or an end that keeps the fault record, whose writes are those of its one
instruction. -/
theorem stepIsAllOrNothing : Obligations.StepIsAllOrNothing := by
  unfold Obligations.StepIsAllOrNothing
  intro s t hb h
  obtain hf | ⟨hsusp, _⟩ | ⟨rfl, hfetch⟩ | ⟨i, hfetch, _, ⟨hh, hrs, hbusy, hc, hinfo, hk, hext, hxlen⟩, hend⟩ :=
    step_outcome hb h
  · exact .inl (exists_faulted_of_raise hf)
  · exact .inr (.inl hsusp)
  · exact .inr (.inr ⟨rfl, rfl, rfl, rfl, rfl, rfl,
      ⟨.halt, hfetch, fun _ _ _ _ _ _ => rfl, fun _ => rfl, fun _ => rfl⟩, .inl ⟨rfl, rfl⟩, .inr ⟨rfl, rfl, rfl⟩⟩)
  · exact .inr (.inr ⟨hc, hinfo, hk, hext, hxlen, hend.mem_len_kept,
      ⟨i, hfetch, fun _ _ hp hd _ ha => hend.cell_kept hp hd ha, hend.mem_kept_of_no_target, hend.rb_kept⟩,
      hend.queues.imp id (Or.imp And.right And.right), .inl ⟨hh, hrs, hbusy⟩⟩)

/-- A step of a busy RUNNING core that ends in FAULTED is the fault entry of a sound record. -/
theorem step_faulted {s t : State} (hb : s.busy = true) (hr : s.rs = .running) (h : step s = .next t)
    (ht : t.rs = .faulted) : ∃ f : FaultRecord, f.Sound ∧ t = s.raise f := by
  obtain hf | ⟨rfl, _⟩ | ⟨rfl, _⟩ | ⟨_, _, _, ⟨_, hrs, _⟩, _⟩ := step_outcome hb h
  · exact hf
  · cases ht
  · cases ht
  · cases (hrs.trans hr).symm.trans ht

theorem Cause.code_pos {c : Cause} (h : c ≠ .noFault) : 1 ≤ c.code := by
  cases c with
  | noFault => exact absurd rfl h
  | _ => exact Nat.succ_pos _

theorem Cause.code_le (c : Cause) : c.code ≤ 5 := by
  cases c <;> decide

theorem Cause.code_eq_two {c : Cause} : c.code = 2 ↔ c = .addressFault := by
  cases c <;> decide

/-- Settles O29: such a step is a fault entry, which writes the record, `rs` and `busy` alone, and the record is
sound. -/
theorem faultsArePrecise : Obligations.FaultsArePrecise := by
  unfold Obligations.FaultsArePrecise
  intro s t hb hr h ht
  obtain ⟨f, ⟨hcause, hkind⟩, rfl⟩ := step_faulted hb hr h ht
  exact ⟨rfl, rfl, rfl, rfl, rfl, rfl, rfl, Cause.code_pos hcause, Cause.code_le _,
    hkind.trans Cause.code_eq_two.symm⟩

@[simp] theorem State.start_halted (s : State) (input : List Int) : (s.start input).halted = s.halted := by
  unfold State.start
  split <;> rfl

@[simp] theorem State.start_mem (s : State) (input : List Int) : (s.start input).mem = s.mem := by
  unfold State.start
  split <;> rfl

/-- Settles O31: of the four outcomes of a step only Halt writes `halted`, and a halted core that meets the invariants
is in HALTED. -/
theorem haltedIsSetOnlyByHalt : Obligations.HaltedIsSetOnlyByHalt := by
  unfold Obligations.HaltedIsSetOnlyByHalt
  refine ⟨?written, ?atHalt, State.start_halted, fun _ _ _ _ => rfl, ?permanent⟩
  case written =>
    intro s t h hne
    cases hb : s.busy with
    | false =>
      cases (step_idle hb).symm.trans h
      exact absurd rfl hne
    | true =>
      obtain ⟨f, _, rfl⟩ | ⟨rfl, _⟩ | ⟨rfl, hf⟩ | ⟨_, _, _, ⟨hh, _⟩, _⟩ := step_outcome hb h
      · exact absurd rfl hne
      · exact absurd rfl hne
      · exact ⟨rfl, hf, rfl⟩
      · exact absurd hh hne
  case atHalt => exact fun s hb hf => ⟨s.halt, step_fetched hb hf, rfl⟩
  case permanent => exact fun s e h hh => Event.apply_of_stopped h (.inl (h.halted_iff.1 hh))

/-- Settles O32: an end of an instruction changes memory by a store to its write parameter alone, and a store keeps the
length. -/
theorem memoryIsWrittenOnlyByStores : Obligations.MemoryIsWrittenOnlyByStores := by
  unfold Obligations.MemoryIsWrittenOnlyByStores
  refine ⟨?written, State.start_mem, ?kept⟩
  case written =>
    intro s t h hne
    obtain ⟨_, hs⟩ | ⟨f, _, _, _, hs⟩ | ⟨i, u, hb, hf, hs, hend⟩ := step_cases s
    all_goals cases hs.symm.trans h
    · exact absurd rfl hne
    · exact absurd rfl hne
    · obtain hm | ⟨c, _, _, hc, _⟩ := hend.mem_kept_or_stored
      · exact absurd hm hne
      · exact ⟨hb, i, hf, Instr.opcode_of_writeParam hc⟩
  case kept =>
    intro s t h
    obtain ⟨_, hs⟩ | ⟨f, _, _, _, hs⟩ | ⟨i, u, hb, hf, hs, hend⟩ := step_cases s
    all_goals cases hs.symm.trans h
    · exact ⟨rfl, rfl, rfl⟩
    · exact ⟨rfl, rfl, rfl⟩
    · exact ⟨hend.mem_len_kept, hend.params_kept⟩

/-- An instruction that leaves the core busy and takes no jump advances `pc` by its length (R23). -/
theorem ExecEnd.pc_advanced {i : Instr} {s t : State} (h : ExecEnd i s t) (hb : t.busy = true)
    (hjnz : ∀ a b, i = .jnz a b → ReadsAs s a 0) (hjz : ∀ a b, i = .jz a b → ∃ x, ReadsAs s a x ∧ x ≠ 0) :
    t.pc = s.pc + i.length := by
  cases h with
  | faulted | suspended | halted => cases hb
  | stored a b c f x y d hp => simp [Instr.length, hp]
  | inputStored a d v rest hi => simp [hi, Instr.length, Instr.params]
  | emitted a x hi => simp [hi, Instr.length, Instr.params]
  | jumped a b x y hi ha =>
    obtain ⟨rfl, hx⟩ | ⟨rfl, rfl⟩ := hi
    · cases ha.symm.trans (State.rd_eq_ok.2 (hjnz a b rfl))
      exact absurd rfl hx
    · obtain ⟨z, hz, hne⟩ := hjz a b rfl
      cases ha.symm.trans (State.rd_eq_ok.2 hz)
      exact absurd rfl hne
  | notTaken a b x y hi => obtain ⟨rfl, _⟩ | ⟨rfl, _⟩ := hi <;> rfl
  | rebased a x hi => simp [hi, Instr.length, Instr.params]

/-- Settles O34: the instruction advances `pc` by its length, and from a `pc` in memory that stays within the bound. -/
theorem pcAdvancesByTheLength : Obligations.PcAdvancesByTheLength := by
  unfold Obligations.PcAdvancesByTheLength
  intro s t i hbound hb hf _ hjnz hjz h hbusy
  obtain ⟨hr, _⟩ := State.fetch_eq_ok hf
  have hend := exec_end_of_next ((step_fetched hb hf).symm.trans h)
  have hpc := hend.pc_advanced hbusy hjnz hjz
  have hin : InX s.xlen (s.pc + i.length) := pc_add_inX hbound hr i.length_le
  exact ⟨hpc, hpc ▸ hin⟩

end Sys2Proof.Machine
end

section
/-! PROOFS. Memory as data, and reset (R43, R160; log entry 3): a canonical list of cells is determined by what its
cells read as, and an image gives the cells it lists. -/

namespace Sys2Proof.Machine

open Sys2Proof.Claims

@[simp] theorem lookupCell_cons_same (a : Nat) (v : Int) (rest : List (Nat × Int)) :
    lookupCell ((a, v) :: rest) a = v := by
  simp [lookupCell]

theorem lookupCell_cons_of_ne {a b : Nat} (h : b ≠ a) (v : Int) (rest : List (Nat × Int)) :
    lookupCell ((a, v) :: rest) b = lookupCell rest b := by
  simp [lookupCell, h]

/-- The first cell that a canonical list lists is the first one that another canonical list with the same contents
lists. -/
theorem head_le_of_lookupCell_eq {hi lo a b : Nat} {v u : Int} {rest rest' : List (Nat × Int)}
    (hw : cellsWf hi lo ((a, v) :: rest) = true) (hw' : cellsWf hi lo ((b, u) :: rest') = true)
    (h : ∀ c, lookupCell ((a, v) :: rest) c = lookupCell ((b, u) :: rest') c) : b ≤ a := by
  obtain ⟨_, _, hv, _⟩ := (cellsWf_cons ..).1 hw
  obtain ⟨_, hrest'⟩ := (cellsWf_cons ..).1 hw'
  by_contra hab
  have hbelow : lookupCell ((b, u) :: rest') a = Memory.unlisted :=
    lookupCell_below (lo := b) (by omega) _ ((cellsWf_cons ..).2 ⟨le_rfl, hrest'⟩)
  exact hv ((lookupCell_cons_same a v rest).symm.trans ((h a).trans hbelow))

/-- Two canonical lists with the same contents are equal. -/
theorem cells_eq_of_lookupCell_eq {hi lo : Nat} {cells cells' : List (Nat × Int)} (hw : cellsWf hi lo cells = true)
    (hw' : cellsWf hi lo cells' = true) (h : ∀ c, lookupCell cells c = lookupCell cells' c) : cells = cells' := by
  induction cells generalizing lo cells' with
  | nil =>
    cases cells' with
    | nil => rfl
    | cons c rest' =>
      obtain ⟨b, u⟩ := c
      exact absurd ((lookupCell_cons_same b u rest').symm.trans (h b).symm) ((cellsWf_cons ..).1 hw').2.2.1
  | cons c rest ih =>
    obtain ⟨a, v⟩ := c
    cases cells' with
    | nil => exact absurd ((lookupCell_cons_same a v rest).symm.trans (h a)) ((cellsWf_cons ..).1 hw).2.2.1
    | cons c' rest' =>
      obtain ⟨b, u⟩ := c'
      obtain rfl : a = b :=
        le_antisymm (head_le_of_lookupCell_eq hw' hw fun c => (h c).symm) (head_le_of_lookupCell_eq hw hw' h)
      obtain rfl : v = u := by simpa using h a
      obtain ⟨_, _, _, hrest⟩ := (cellsWf_cons ..).1 hw
      obtain ⟨_, _, _, hrest'⟩ := (cellsWf_cons ..).1 hw'
      have hsame : ∀ c, lookupCell rest c = lookupCell rest' c := by
        intro c
        by_cases hc : c = a
        · rw [hc, lookupCell_below (Nat.lt_succ_self a) _ hrest, lookupCell_below (Nat.lt_succ_self a) _ hrest']
        · rw [← lookupCell_cons_of_ne hc v rest, ← lookupCell_cons_of_ne hc v rest', h c]
      rw [ih hrest hrest' hsame]

/-- Settles O33: a memory is its length and a canonical list of cells. -/
theorem canonicalMemoriesAreEqual : Obligations.CanonicalMemoriesAreEqual := by
  unfold Obligations.CanonicalMemoriesAreEqual
  rintro ⟨len, cells⟩ ⟨len', cells'⟩ hw hw' hlen h
  obtain rfl : len = len' := hlen
  exact congrArg (Memory.mk len) (cells_eq_of_lookupCell_eq hw hw' h)

theorem cellsOfImage_cons (lo : Nat) (v : Int) (image : List Int) :
    cellsOfImage lo (v :: image) =
      if v = Memory.unlisted then cellsOfImage (lo + 1) image else (lo, v) :: cellsOfImage (lo + 1) image :=
  rfl

/-- The first cell of an image matters to its own index alone. -/
theorem lookupCell_cellsOfImage_cons_of_ne {a lo : Nat} (h : a ≠ lo) (v : Int) (image : List Int) :
    lookupCell (cellsOfImage lo (v :: image)) a = lookupCell (cellsOfImage (lo + 1) image) a := by
  rw [cellsOfImage_cons]
  split
  · rfl
  · exact lookupCell_cons_of_ne h v _

/-- The first cell of an image is read at its own index, listed or not. -/
theorem lookupCell_cellsOfImage_cons_same (lo : Nat) (v : Int) (image : List Int) :
    lookupCell (cellsOfImage lo (v :: image)) lo = v := by
  rw [cellsOfImage_cons]
  split
  · next hv => rw [lookupCell_below (Nat.lt_succ_self lo) _ (cellsOfImage_wf _ image (lo + 1) le_rfl), hv]
  · exact lookupCell_cons_same lo v _

/-- The cells of an image from index `lo` on read as the image says, and every later one as 0. -/
theorem lookupCell_cellsOfImage (lo : Nat) (image : List Int) (k : Nat) :
    lookupCell (cellsOfImage lo image) (lo + k) = (image[k]?).getD Memory.unlisted := by
  induction image generalizing lo k with
  | nil => rfl
  | cons v image ih =>
    cases k with
    | zero => exact lookupCell_cellsOfImage_cons_same lo v image
    | succ k =>
      rw [lookupCell_cellsOfImage_cons_of_ne (by omega), ← add_assoc, add_right_comm, ih]
      rfl

/-- What construction puts in memory (R160). -/
theorem Memory.cell_ofImage (image : List Int) (pad a : Nat) :
    (Memory.ofImage image pad).cell a = (image[a]?).getD Memory.unlisted := by
  simpa [Memory.cell, Memory.ofImage] using lookupCell_cellsOfImage 0 image a

/-- Settles O37: within the premises reset is construction, whose memory reads as the image and then as 0; outside
them it is refused. -/
theorem resetGivesItsState : Obligations.ResetGivesItsState := by
  unfold Obligations.ResetGivesItsState
  refine fun s image pad => ⟨fun hl hi => ?reset, Event.hostReset_of_not_memLenLegal, Event.hostReset_of_not_inX⟩
  case reset =>
    refine ⟨_, Event.hostReset_of_legal hl hi, rfl, fun a v ha => ?image, fun a ha => ?zeros, rfl, rfl, rfl, rfl, rfl,
      rfl, rfl, rfl, rfl, rfl, rfl, rfl⟩
    case image => exact (Memory.cell_ofImage image pad a).trans (by rw [ha, Option.getD_some])
    case zeros =>
      exact (Memory.cell_ofImage image pad a).trans (by rw [List.getElem?_eq_none ha]; rfl)

/-- Zeros list no cell. -/
theorem cellsOfImage_zeros (lo p : Nat) : cellsOfImage lo (List.replicate p 0) = [] := by
  induction p generalizing lo with
  | zero => rfl
  | succ p ih => exact (if_pos rfl).trans (ih (lo + 1))

/-- Zeros at the end of an image list no further cell. -/
theorem cellsOfImage_append_zeros (lo : Nat) (image : List Int) (p : Nat) :
    cellsOfImage lo (image ++ List.replicate p 0) = cellsOfImage lo image := by
  induction image generalizing lo with
  | nil => exact cellsOfImage_zeros lo p
  | cons v image ih => simp only [List.cons_append, cellsOfImage_cons, ih]

/-- Settles O38: the two memories have the same length and list the same cells. -/
theorem paddingEqualsZeroCells : Obligations.PaddingEqualsZeroCells := by
  unfold Obligations.PaddingEqualsZeroCells
  intro xlen extended image p
  have hmem : Memory.ofImage image p = Memory.ofImage (image ++ List.replicate p 0) 0 := by
    simp [Memory.ofImage, cellsOfImage_append_zeros]
  rw [construct, construct, hmem]

end Sys2Proof.Machine
end

section
/-! PROOFS. A step as the decoding of the cells at `pc` (50_run_control.md section 2): the fetch stages read the same
cells in the same order and stop where `decode` does. -/

namespace Sys2Proof.Machine

open Sys2Proof.Claims

theorem cellsFrom_of_inRange {s : State} {a : Int} (h : s.mem.InRange a) (n : Nat) :
    cellsFrom s (n + 1) a = s.mem.cell a.toNat :: cellsFrom s n (a + 1) :=
  if_pos h

theorem cellsFrom_of_not_inRange {s : State} {a : Int} (h : ¬ s.mem.InRange a) (n : Nat) :
    cellsFrom s (n + 1) a = [] :=
  if_neg h

/-- What the list holds at `k` is the content of an address in memory. -/
theorem inRange_of_cellsFrom_getElem? {s : State} {n k : Nat} {a r : Int} (h : (cellsFrom s n a)[k]? = some r) :
    s.mem.InRange (a + k) ∧ s.mem.cell (a + k).toNat = r := by
  induction n generalizing a k with
  | zero => cases h
  | succ n ih =>
    by_cases hr : s.mem.InRange a
    · rw [cellsFrom_of_inRange hr] at h
      cases k with
      | zero => exact ⟨by simpa using hr, by simpa using h⟩
      | succ k => simpa only [add_one_add_natCast] using ih h
    · rw [cellsFrom_of_not_inRange hr] at h
      cases h

/-- From an address that is not negative, the list holds the content of every address in memory that it is long enough
for. -/
theorem cellsFrom_getElem? {s : State} {n k : Nat} {a : Int} (h0 : 0 ≤ a) (hk : k < n) (hr : a + k < s.mem.len) :
    (cellsFrom s n a)[k]? = some (s.mem.cell (a + k).toNat) := by
  induction n generalizing a k with
  | zero => omega
  | succ n ih =>
    rw [cellsFrom_of_inRange (by omega)]
    cases k with
    | zero => simp
    | succ k =>
      rw [List.getElem?_cons_succ]
      simpa only [add_one_add_natCast] using ih (a := a + 1) (k := k) (by omega) (by omega) (by omega)

/-- A list shorter than was asked for ends where memory does. -/
theorem not_inRange_of_cellsFrom_length {s : State} {n : Nat} {a : Int} (h : (cellsFrom s n a).length < n) :
    ¬ s.mem.InRange (a + (cellsFrom s n a).length) := by
  induction n generalizing a with
  | zero => omega
  | succ n ih =>
    by_cases hr : s.mem.InRange a
    · rw [cellsFrom_of_inRange hr, List.length_cons] at h ⊢
      simpa only [add_one_add_natCast] using ih (a := a + 1) (by omega)
    · rw [cellsFrom_of_not_inRange hr]
      simpa using hr

/-- Parameter fetch reads the cells at the front of the list. -/
theorem paramCells_of_cellsFrom {s : State} {n : Nat} {a : Int} {raws rest : List Int}
    (h : cellsFrom s n a = raws ++ rest) : s.paramCells raws.length a = .ok raws := by
  refine State.paramCells_of_cells fun k r hk => inRange_of_cellsFrom_getElem? (n := n) ?_
  rw [h, List.getElem?_append_left (List.getElem?_eq_some_iff.1 hk).1, hk]

/-- Parameter fetch of more cells than there are faults at the first one missing. -/
theorem paramCells_of_cellsFrom_short {s : State} {n m : Nat} {a : Int} (hm : m ≤ n)
    (h : (cellsFrom s n a).length < m) :
    s.paramCells m a = .error (.address (a + (cellsFrom s n a).length) .param) := by
  refine State.paramCells_of_first_missing h (fun j hj => ?_) (not_inRange_of_cellsFrom_length (by omega))
  exact (inRange_of_cellsFrom_getElem? (List.getElem?_eq_getElem hj)).1

/-- The fetch stages end as the decoding of the cells at `pc` does: in an instruction, at a missing cell, or in a decode
fault. -/
theorem fetch_decode_cases (s : State) :
    (∃ i rest, decode s.extended (cellsFrom s 4 s.pc) = .ok (i, rest) ∧ s.fetch = .ok i) ∨
    (∃ k, decode s.extended (cellsFrom s 4 s.pc) = .error (.missingCell k) ∧
      s.fetch = .error (.address (s.pc + k) (if k = 0 then .fetch else .param))) ∨
    (∃ f, decode s.extended (cellsFrom s 4 s.pc) = .error (.fault f) ∧
      s.fetch = .error (decodeFaultRecord (s.mem.cell s.pc.toNat) f)) := by
  by_cases hr : s.mem.InRange s.pc
  · rw [cellsFrom_of_inRange hr]
    cases hd : decodeHead s.extended (s.mem.cell s.pc.toNat) with
    | error f => exact .inr (.inr ⟨f, decode_cons_fault hd _, State.fetch_of_head_fault hr hd⟩)
    | ok h =>
      rw [decode_cons_head hd, State.fetch_of_head hr hd]
      obtain ⟨raws, rest, hcells, hlen, ht⟩ | ⟨hshort, ht⟩ := h.takeParams_cases (cellsFrom s 3 (s.pc + 1))
      · rw [ht, ← hlen, paramCells_of_cellsFrom hcells]
        exact .inl ⟨_, _, rfl, rfl⟩
      · rw [ht, paramCells_of_cellsFrom_short h.op.arity_le hshort, add_one_add_natCast]
        exact .inr (.inl ⟨_, rfl, rfl⟩)
  · rw [cellsFrom_of_not_inRange hr, State.fetch_of_pc_out hr]
    exact .inr (.inl ⟨0, rfl, by simp⟩)

/-- The fault entry of a word that does not decode. -/
theorem raise_decodeFaultRecord (s : State) (w : Int) (f : DecodeFault) :
    s.raise (decodeFaultRecord w f) = Faulted s (causeOf f) w .noKind := by
  cases f <;> rfl

/-- Settles O10: the three ends of decode are the three ends of the fetch stages, and a step runs what was fetched or
enters the fault. -/
theorem stepRunsTheDecodedInstruction : Obligations.StepRunsTheDecodedInstruction := by
  unfold Obligations.StepRunsTheDecodedInstruction
  intro s hb
  obtain ⟨i, rest, hd, hf⟩ | ⟨k, hd, hf⟩ | ⟨f, hd, hf⟩ := fetch_decode_cases s
  · rw [hd]
    refine ⟨fun j rest' he => ?_, nofun, nofun⟩
    cases he
    exact step_fetched hb hf
  · rw [hd]
    refine ⟨nofun, fun k' he => ?_, nofun⟩
    cases he
    exact step_not_fetched hb hf
  · rw [hd]
    refine ⟨nofun, nofun, fun f' he => ?_⟩
    cases he
    exact (step_not_fetched hb hf).trans (congrArg _ (raise_decodeFaultRecord ..))

end Sys2Proof.Machine
end

section
/-! PROOFS. A store and the next fetch (20_memory.md section 6): what an instruction stores is determined, the store is
all that its step does to memory, and the fetch of the next step reads memory as it then is. -/

namespace Sys2Proof.Machine

open Sys2Proof.Claims

/-- `wrap_X` has one value (R11). -/
theorem isWrapOf_unique {s : State} (hx : 0 < s.xlen) {r r' v : Int} (h : IsWrapOf s r v) (h' : IsWrapOf s r' v) :
    r = r' := by
  obtain ⟨hr, q, hq⟩ := h
  obtain ⟨hr', q', hq'⟩ := h'
  exact inX_unique hx hr hr' (q := q' - q) (by linarith)

/-- What `Stores` says an instruction stores is what the model computes for it. -/
theorem stores_cases {s : State} (hx : 0 < s.xlen) {i : Instr} {v : Int} (h : Stores s i v) :
    (∃ a b c f x y, i.params = [a, b, c] ∧ i.writeParam = some c ∧
      exec i s = s.computeStore i.word f a b c ∧ s.rd a = .ok x ∧ s.rd b = .ok y ∧ v = f x y) ∨
    (∃ a rest, i = .inp a ∧ s.inq = v :: rest) := by
  cases i with
  | add a b c =>
    obtain ⟨x, y, ha, hb, hv⟩ := h
    exact .inl ⟨a, b, c, _, x, y, rfl, rfl, rfl, State.rd_eq_ok.2 ha, State.rd_eq_ok.2 hb,
      isWrapOf_unique hx hv (aluAdd_isWrapOf hx x y)⟩
  | mul a b c =>
    obtain ⟨x, y, ha, hb, hv⟩ := h
    exact .inl ⟨a, b, c, _, x, y, rfl, rfl, rfl, State.rd_eq_ok.2 ha, State.rd_eq_ok.2 hb,
      isWrapOf_unique hx hv (aluMul_isWrapOf hx x y)⟩
  | lt a b c =>
    obtain ⟨x, y, ha, hb, h1, h0⟩ := h
    refine .inl ⟨a, b, c, _, x, y, rfl, rfl, rfl, State.rd_eq_ok.2 ha, State.rd_eq_ok.2 hb, ?_⟩
    by_cases hxy : x < y
    · rw [h1 hxy, aluLt_of_lt hxy]
    · rw [h0 hxy, aluLt_of_not_lt hxy]
  | eq a b c =>
    obtain ⟨x, y, ha, hb, h1, h0⟩ := h
    refine .inl ⟨a, b, c, _, x, y, rfl, rfl, rfl, State.rd_eq_ok.2 ha, State.rd_eq_ok.2 hb, ?_⟩
    by_cases hxy : x = y
    · rw [h1 hxy, hxy, aluEq_self]
    · rw [h0 hxy, aluEq_of_ne hxy]
  | inp a =>
    obtain ⟨rest, hq⟩ := h
    exact .inr ⟨a, rest, rfl, hq⟩
  | out | jnz | jz | changeBase | halt => exact h.elim

/-- A store completes: the value is put in its cell, `pc` advances by the instruction's length and the core stays
busy. -/
theorem exec_of_stores {s : State} (hx : 0 < s.xlen) {i : Instr} {c : Param} {d : Nat} {v : Int}
    (hc : i.writeParam = some c) (hd : WritesTo s c d) (h : Stores s i v) :
    ∃ t, exec i s = .next t ∧ t.busy = s.busy ∧ t.pc = s.pc + i.length ∧ t.mem = s.mem.setCell d v := by
  obtain ⟨a, b, c', f, x, y, hp, hc', hexec, ha, hb, rfl⟩ | ⟨a, rest, rfl, hq⟩ := stores_cases hx h
  · cases hc.symm.trans hc'
    refine ⟨_, hexec.trans (State.computeStore_of_ok ha hb (State.wa_eq_ok.2 hd)), rfl, ?_, rfl⟩
    simp [Instr.length, hp]
  · cases hc
    exact ⟨_, exec_inp_of_wa hq (State.wa_eq_ok.2 hd), rfl, rfl, rfl⟩

/-- A write target lies in memory. -/
theorem lt_len_of_writesTo {s : State} {c : Param} {d : Nat} (h : WritesTo s c d) : d < s.mem.len :=
  State.wa_lt (w := 0) (State.wa_eq_ok.2 h)

/-- Settles O36: the store is in memory after the step, the cells from the new `pc` on are those of that memory, and the
next step is the one that these cells decode to. -/
theorem storeIsSeenByTheNextFetch : Obligations.StoreIsSeenByTheNextFetch := by
  unfold Obligations.StoreIsSeenByTheNextFetch
  intro s i c d v hinv hb hf hc hd hv
  have hx := hinv.two_le_xlen
  obtain ⟨hr, _⟩ := State.fetch_eq_ok hf
  obtain ⟨t, ht, hbusy, hpc, hmem⟩ := exec_of_stores (by omega) hc hd hv
  have hcell : t.mem.cell d = v := by rw [hmem, Memory.cell_setCell_same hinv.mem_wf]
  have hlen : d < t.mem.len := by
    rw [hmem, Memory.setCell_len]
    exact lt_len_of_writesTo hd
  obtain ⟨hok, _, hfault⟩ := stepRunsTheDecodedInstruction t (hbusy.trans hb)
  refine ⟨t, (step_fetched hb hf).trans ht, hbusy.trans hb, hpc, hcell, fun k hk hdk => ?_, hok, hfault⟩
  rw [cellsFrom_getElem? (by omega) hk (by omega), ← hdk, Int.toNat_natCast, hcell]

end Sys2Proof.Machine
end

section
/-! PROOFS. Starts, resumption and idle cores (R114, R117, R119): a start is permitted and loads its input, or it is
ignored. -/

namespace Sys2Proof.Machine

open Sys2Proof.Claims

/-- A start is not permitted to a core that is busy, halted or faulted (R114). -/
theorem State.startPermitted_eq_false {s : State} (h : s.busy = true ∨ s.rs = .halted ∨ s.rs = .faulted) :
    s.startPermitted = false := by
  obtain hb | hs := h
  · simp [State.startPermitted, hb]
  · exact (State.startPermitted_of_stopped hs).2

/-- Where a start is not permitted the execute transaction runs nothing and yields an empty output (R119). -/
theorem execute_of_not_permitted {s : State} (hp : s.startPermitted = false) (fuel : Nat) (input : List Int) :
    execute fuel input s = some ([], s) := by
  simp [execute, hp]

/-- Settles O45: the two clauses are the two values of `startPermitted`. -/
theorem startLoadsTheInputOrIsIgnored : Obligations.StartLoadsTheInputOrIsIgnored := by
  unfold Obligations.StartLoadsTheInputOrIsIgnored
  refine fun s input fuel => ⟨fun hb hs => ?permitted, fun h => ?ignored⟩
  case permitted =>
    have hp : s.startPermitted = true := State.startPermitted_iff.2 ⟨hb, hs⟩
    rw [State.start_of_permitted hp]
    exact ⟨rfl, Event.hostStart_of_permitted hp, Event.hostStart_of_not_inX hp⟩
  case ignored =>
    have hp := State.startPermitted_eq_false h
    exact ⟨State.start_of_not_permitted hp input, Event.hostStart_of_not_permitted hp input,
      execute_of_not_permitted hp fuel input⟩

/-- Settles O44, by induction on the number of steps: each one answers the same state. -/
theorem idleCoreDoesNotChange : Obligations.IdleCoreDoesNotChange := by
  unfold Obligations.IdleCoreDoesNotChange
  intro n s hb
  induction n with
  | zero => rfl
  | succ n ih => exact (applyEvents_cons (e := .coreStep) (step_idle hb) _).trans ih

/-- A start changes nothing that the fetch stages read. -/
theorem State.startRun_fetch (s : State) (input : List Int) : (s.startRun input).fetch = s.fetch :=
  State.fetch_congr rfl rfl rfl

/-- Settles O46: an In stands at `pc` of a suspended core, and it is what the step after a start fetches. -/
theorem resumptionReexecutesTheIn : Obligations.ResumptionReexecutesTheIn := by
  unfold Obligations.ResumptionReexecutesTheIn
  intro s h hs
  obtain ⟨_, a, hf⟩ := h.suspended_at_in hs
  have hidle : s.busy = false := h.idle_of_not_running (by simp [hs])
  have hp : s.startPermitted = true := State.startPermitted_iff.2 ⟨hidle, .inr hs⟩
  refine ⟨a, hf, fun input => ?_⟩
  rw [State.start_of_permitted hp]
  exact ⟨step_fetched rfl ((s.startRun_fetch input).trans hf), rfl, rfl, rfl, rfl⟩

end Sys2Proof.Machine
end

section
/-! PROOFS. Runs (R115, R120): one induction over the fuel carries what every step of a busy core keeps to the end of
the run, which is idle. -/

namespace Sys2Proof.Machine

open Sys2Proof.Claims

theorem runToEnd_of_idle {s : State} (hb : s.busy = false) (fuel : Nat) : runToEnd fuel s = some s := by
  cases fuel <;> simp [runToEnd, hb]

theorem runToEnd_zero_of_busy {s : State} (hb : s.busy = true) : runToEnd 0 s = none := by
  simp [runToEnd, hb]

theorem runToEnd_succ_of_step {s u : State} (hb : s.busy = true) (hs : step s = .next u) (fuel : Nat) :
    runToEnd (fuel + 1) s = runToEnd fuel u := by
  simp only [runToEnd, hb, hs, if_true]

/-- A run that has ended did not begin, in an idle core, or went on from its first step with one unit of fuel less. -/
theorem runToEnd_cases {fuel : Nat} {s t : State} (h : runToEnd fuel s = some t) :
    (s.busy = false ∧ t = s) ∨
    ∃ n u, fuel = n + 1 ∧ s.busy = true ∧ step s = .next u ∧ runToEnd n u = some t := by
  cases hb : s.busy with
  | false => exact .inl ⟨rfl, Option.some.inj (h.symm.trans (runToEnd_of_idle hb fuel))⟩
  | true =>
    cases fuel with
    | zero => cases (runToEnd_zero_of_busy hb).symm.trans h
    | succ n =>
      obtain ⟨u, hu⟩ := step_next s
      exact .inr ⟨n, u, rfl, rfl, hu, (runToEnd_succ_of_step hb hu n).symm.trans h⟩

/-- What holds at the start of a run and is kept by every step of a busy core holds at its end, where the core is
idle. -/
theorem runToEnd_induction {P : State → Prop} (hstep : ∀ s u, s.busy = true → step s = .next u → P s → P u)
    {fuel : Nat} {s t : State} (h0 : P s) (h : runToEnd fuel s = some t) : P t ∧ t.busy = false := by
  induction fuel generalizing s with
  | zero =>
    obtain ⟨hb, rfl⟩ | ⟨_, _, hfuel, _⟩ := runToEnd_cases h
    · exact ⟨h0, hb⟩
    · cases hfuel
  | succ fuel ih =>
    obtain ⟨hb, rfl⟩ | ⟨_, u, hfuel, hb, hu, hrun⟩ := runToEnd_cases h
    · exact ⟨h0, hb⟩
    · cases hfuel
      exact ih (hstep s u hb hu h0) hrun

/-- More fuel does not change the end of a run (R120). -/
theorem runToEnd_more {fuel : Nat} {s t : State} (h : runToEnd fuel s = some t) (more : Nat) :
    runToEnd (fuel + more) s = some t := by
  induction fuel generalizing s with
  | zero =>
    obtain ⟨hb, rfl⟩ | ⟨_, _, hfuel, _⟩ := runToEnd_cases h
    · exact runToEnd_of_idle hb _
    · cases hfuel
  | succ fuel ih =>
    obtain ⟨hb, rfl⟩ | ⟨_, u, hfuel, hb, hu, hrun⟩ := runToEnd_cases h
    · exact runToEnd_of_idle hb _
    · cases hfuel
      rw [Nat.add_right_comm, runToEnd_succ_of_step hb hu, ih hrun]

/-- A step that leaves the core idle leaves it in another state than RUNNING. -/
theorem not_running_of_step_idle {s u : State} (hb : s.busy = true) (h : step s = .next u) (hu : u.busy = false) :
    u.rs ≠ .running := by
  obtain ⟨f, _, rfl⟩ | ⟨rfl, _⟩ | ⟨rfl, _⟩ | ⟨_, _, _, ⟨_, _, hbusy, _⟩, _⟩ := step_outcome hb h
  · simp
  · simp
  · simp
  · cases (hbusy.trans hb).symm.trans hu

/-- The end of a run of a busy core that meets the invariants meets them, idle and in another state than RUNNING. -/
theorem runToEnd_inv {fuel : Nat} {s t : State} (hinv : s.Inv) (hb : s.busy = true) (h : runToEnd fuel s = some t) :
    t.Inv ∧ t.busy = false ∧ t.rs ≠ .running := by
  have hend := runToEnd_induction (P := fun u => u.Inv ∧ (u.busy = false → u.rs ≠ .running))
    (fun u u' hub hu hP => ⟨stepKeepsTheInvariants u u' hP.1 hu, not_running_of_step_idle hub hu⟩)
    ⟨hinv, fun hf => absurd (hf.symm.trans hb) (by decide)⟩ h
  obtain ⟨⟨hinv', hrs⟩, hidle⟩ := hend
  exact ⟨hinv', hidle, hrs hidle⟩

/-- Settles O47: the end of a run is idle and not RUNNING, and fuel that is left over is not used. -/
theorem runEndsIdleWhateverTheFuel : Obligations.RunEndsIdleWhateverTheFuel := by
  unfold Obligations.RunEndsIdleWhateverTheFuel
  intro fuel s t hinv hb h
  obtain ⟨_, hidle, hrs⟩ := runToEnd_inv hinv hb h
  refine ⟨hidle, ?_, runToEnd_more h⟩
  cases hr : t.rs with
  | running => exact absurd hr hrs
  | suspended => exact .inl rfl
  | halted => exact .inr (.inl rfl)
  | faulted => exact .inr (.inr rfl)

/-- From `s` to `u`, inputs were taken from the front of `inq` and outputs appended at the back of `outq` (R29, R30). -/
def QueuesMoved (s u : State) : Prop :=
  (∃ taken, s.inq = taken ++ u.inq) ∧ ∃ emitted, u.outq = s.outq ++ emitted

theorem QueuesMoved.refl (s : State) : QueuesMoved s s :=
  ⟨⟨[], rfl⟩, [], (List.append_nil _).symm⟩

theorem QueuesMoved.trans {s u t : State} (h : QueuesMoved s u) (h' : QueuesMoved u t) : QueuesMoved s t := by
  obtain ⟨⟨taken, hin⟩, emitted, hout⟩ := h
  obtain ⟨⟨taken', hin'⟩, emitted', hout'⟩ := h'
  exact ⟨⟨taken ++ taken', by rw [hin, hin', List.append_assoc]⟩,
    emitted ++ emitted', by rw [hout', hout, List.append_assoc]⟩

/-- A step moves the queues by one operation at most. -/
theorem queuesMoved_of_step {s u : State} (hb : s.busy = true) (h : step s = .next u) : QueuesMoved s u := by
  obtain ⟨f, _, rfl⟩ | ⟨i, _, hend⟩ := step_busy_cases hb h
  · exact QueuesMoved.refl s
  · obtain ⟨hin, hout⟩ | ⟨_, hout, v, hin⟩ | ⟨_, hin, v, hout⟩ := hend.queues
    · exact ⟨⟨[], hin.symm⟩, [], hout.trans (List.append_nil _).symm⟩
    · exact ⟨⟨[v], hin⟩, [], hout.trans (List.append_nil _).symm⟩
    · exact ⟨⟨[], hin.symm⟩, [v], hout⟩

/-- Settles O48: every step moves the queues in order, and a suspended core that meets the invariants has no input. -/
theorem runKeepsTheOrderOfInputAndOutput : Obligations.RunKeepsTheOrderOfInputAndOutput := by
  unfold Obligations.RunKeepsTheOrderOfInputAndOutput
  intro fuel s t hinv hb h
  obtain ⟨⟨hin, hout⟩, _⟩ := runToEnd_induction (P := QueuesMoved s)
    (fun _ _ hub hu hP => hP.trans (queuesMoved_of_step hub hu)) (QueuesMoved.refl s) h
  obtain ⟨hinv', _⟩ := runToEnd_inv hinv hb h
  exact ⟨hin, hout, fun hs => (hinv'.suspended_at_in hs).1⟩

/-- An answer of the execute transaction to a permitted start is the end of the run after it, with the `outq` that the
run left; the input was in `Int_X` (R114, R115, R122). -/
theorem execute_eq_some {fuel : Nat} {input out : List Int} {s t : State} (hp : s.startPermitted = true)
    (h : execute fuel input s = some (out, t)) :
    AllInX s.xlen input ∧ runToEnd fuel (s.startRun input) = some t ∧ t.outq = out := by
  rw [execute, if_pos hp] at h
  split at h
  · next hin =>
    obtain ⟨u, hu, he⟩ := Option.map_eq_some_iff.1 h
    cases he
    exact ⟨hin, hu, rfl⟩
  · cases h

section
variable {s : State} (hb : s.busy = false)
include hb

theorem State.collect_of_idle : s.collect = some s.outq := by
  simp [State.collect, hb]

theorem State.runResult_of_done (hs : s.rs = .suspended ∨ s.rs = .halted) : s.runResult = some s.outq := by
  obtain hs | hs := hs <;> simp [State.runResult, hb, hs]

theorem State.runResult_of_faulted (hs : s.rs = .faulted) : s.runResult = none := by
  simp [State.runResult, hb, hs]

end

/-- Settles O49: the run of the transaction ends idle, so its `outq` can be collected, and `rs` says whether it is a
result. -/
theorem executeReturnsTheOutputOfTheRun : Obligations.ExecuteReturnsTheOutputOfTheRun := by
  unfold Obligations.ExecuteReturnsTheOutputOfTheRun
  intro fuel input out s t hinv hp h
  obtain ⟨hin, hrun, rfl⟩ := execute_eq_some hp h
  obtain ⟨_, hidle, _⟩ := runToEnd_inv (hinv.startRun hp hin) rfl hrun
  exact ⟨hrun, State.collect_of_idle hidle, State.runResult_of_done hidle, State.runResult_of_faulted hidle⟩

end Sys2Proof.Machine
end

section
/-! PROOFS. Several cores (R124): an event modifies the list at its own index and nowhere else. -/

namespace Sys2Proof.Machine

/-- The core after an event: the next state, or the same one where the model refuses the event (log entry 8). -/
def Event.stateAfter (e : Event) (s : State) : State :=
  match e.apply s with
  | .next t => t
  | .fault _ => s
  | .refused _ => s

/-- An event of core `k` modifies the list at index `k`. -/
theorem coresApply_eq_modify (k : Nat) (e : Event) (cores : List State) :
    coresApply k e cores = cores.modify k e.stateAfter := by
  rw [List.modify_eq_set_getElem?]
  unfold coresApply Event.stateAfter
  cases hk : cores[k]? with
  | none => rfl
  | some s =>
    obtain ⟨hlt, hs⟩ := List.getElem?_eq_some_iff.1 hk
    have hsame : cores.set k s = cores := hs ▸ List.set_getElem_self hlt
    cases he : e.apply s with
    | next t => simp [he]
    | fault f => simp [he, hsame]
    | refused r => simp [he, hsame]

/-- Settles O50: modifications of a list at different indices commute and leave each other's index alone. -/
theorem coresAreIndependent : Obligations.CoresAreIndependent := by
  unfold Obligations.CoresAreIndependent
  intro k l e f cores hne
  simp only [coresApply_eq_modify]
  exact ⟨List.modify_modify_ne _ _ _ hne.symm, List.getElem?_modify_ne _ _ hne⟩

end Sys2Proof.Machine
end
